-- ==== Sys2Proof/Word.lean ====
section
/-! DEFINITION. The word types of the block (spec 00_scope.md R3): 8-bit bytes, 16-bit words, 12-bit addresses, and
the 4-bit indices that name a register, a key or a row count. -/

namespace Sys2Proof

/-- An 8-bit value: a V register, a timer, a memory byte (10_state.md R20, R25, R26; 20_memory.md R50). -/
abbrev Byte := BitVec 8

/-- A 16-bit value: an instruction word, I, or PC (30_encoding.md R70; 10_state.md R22, R23). -/
abbrev Word := BitVec 16

/-- A 12-bit address: a literal `nnn` field or a stack entry (30_encoding.md R71; 10_state.md R27). -/
abbrev Addr := BitVec 12

/-- The index of one of V0..VF, a 4-bit field (10_state.md R20). -/
abbrev Reg := Fin 16

/-- A logical key index, 0..15 (00_scope.md R10). -/
abbrev Key := Fin 16

end Sys2Proof
end

