-- ==== Sys2Proof/Config.lean ====
section
/-! DEFINITION. What is fixed for one machine: the fixed parameters of 00_scope.md R3, the open parameters of R4 as a
record, and the answers of the environment as constants with no body, so that no proof can see a value of theirs. -/

namespace Sys2Proof

/-- `KEY_DISPATCH` (30_encoding.md R76). -/
inductive KeyDispatch
  | exact
  | faithful
  deriving DecidableEq, Repr

/-- `SHIFT_SOURCE` (42_alu.md R140, R142). -/
inductive ShiftSource
  | vx
  | vy
  deriving DecidableEq, Repr

/-- `GLYPH_INDEX` (45_timer_memory.md R194). -/
inductive GlyphIndex
  | full
  | lowNibble
  deriving DecidableEq, Repr

/-- `FAMILY0_OTHER` (30_encoding.md R74). -/
inductive Family0Other
  | sys
  | fault
  deriving DecidableEq, Repr

/-- `RESET_REGS` (10_state.md R41). -/
inductive ResetRegs
  | zero
  | unwritten
  deriving DecidableEq, Repr

/-- The open parameters of 00_scope.md R4, and the tracing switch of 00_scope.md R14. -/
structure Config where
  /-- `TIMER_HZ`, a frequency in Hz (60_exceptions.md R227; assumption log 10). -/
  timerHz : Rat
  /-- `STACK_DEPTH`; `none` is `unbounded` (10_state.md R27). -/
  stackDepth : Option Nat
  keyDispatch : KeyDispatch
  shiftSource : ShiftSource
  glyphIndex : GlyphIndex
  family0Other : Family0Other
  resetRegs : ResetRegs
  /-- `GLYPH_BYTES`, glyph 0 first, each glyph's top row first (10_state.md R43). -/
  glyphBytes : Vector Byte 80
  /-- Whether tracing is enabled (60_exceptions.md R237). -/
  tracing : Bool
  deriving DecidableEq, Repr

namespace Config

/-! The fixed parameters of 00_scope.md R3. -/

/-- `MEMSIZE`. -/
abbrev memSize : Nat := 4096
/-- `PROG_BASE`, also the reset PC. -/
abbrev progBase : Nat := 0x200
/-- `GLYPH_STRIDE`. -/
abbrev glyphStride : Nat := 5
/-- `FB_BASE`. -/
abbrev fbBase : Nat := 0xF00
/-- `FB_SIZE`. -/
abbrev fbSize : Nat := 256
/-- `FB_W`. -/
abbrev fbW : Nat := 64
/-- `FB_H`. -/
abbrev fbH : Nat := 32

/-- The free answer of the key poll numbered `n` (44_keys.md R180: "A model treats every answer as a free draw"). -/
opaque freeKey : Nat → Option Key

/-- The free random byte numbered `n` (42_alu.md R143, 60_exceptions.md R236). -/
opaque freeRand8 : Nat → Byte

/-- The free number of milliseconds that pass before the clock reading numbered `n` (60_exceptions.md R231). -/
opaque freeElapsedMs : Nat → Nat

end Config

end Sys2Proof
end

