-- ==== Sys2Proof/Machine/Parameters.lean ====
section
/-! DEFINITION. The values this spec gives the open parameters (00_scope.md R4, 92_eei_decisions.md's table of open
parameters). -/

namespace Sys2Proof.Machine

/-- The standard font: the sixteen glyphs, five rows each, top row first (10_state.md R43). -/
def glyphTable : List (List Byte) :=
  [[0xF0, 0x90, 0x90, 0x90, 0xF0], [0x20, 0x60, 0x20, 0x20, 0x70], [0xF0, 0x10, 0xF0, 0x80, 0xF0],
   [0xF0, 0x10, 0xF0, 0x10, 0xF0]]
  ++ [[0x90, 0x90, 0xF0, 0x10, 0x10], [0xF0, 0x80, 0xF0, 0x10, 0xF0], [0xF0, 0x80, 0xF0, 0x90, 0xF0],
   [0xF0, 0x10, 0x20, 0x40, 0x40]]
  ++ [[0xF0, 0x90, 0xF0, 0x90, 0xF0], [0xF0, 0x90, 0xF0, 0x10, 0xF0], [0xF0, 0x90, 0xF0, 0x90, 0x90],
   [0xE0, 0x90, 0xE0, 0x90, 0xE0]]
  ++ [[0xF0, 0x80, 0x80, 0x80, 0xF0], [0xE0, 0x90, 0x90, 0x90, 0xE0], [0xF0, 0x80, 0xF0, 0x80, 0xF0],
   [0xF0, 0x80, 0xF0, 0x80, 0x80]]

/-- 00_scope.md R4, the column "this spec". `tracing` is a DESIGN CHOICE (assumption log 11). -/
def specConfig : Config where
  timerHz := 60
  stackDepth := some 16
  keyDispatch := .exact
  shiftSource := .vx
  glyphIndex := .full
  family0Other := .sys
  resetRegs := .zero
  glyphBytes := ⟨glyphTable.flatten.toArray, rfl⟩
  tracing := false

end Sys2Proof.Machine
end

