-- ==== Sys2Proof/Syntax.lean ====
section
/-! DEFINITION. The instructions: one constructor per row of spec/opcode_table.json, the two aliases of 30_encoding.md
R91 included. Operands are the fields of 30_encoding.md R71. -/

namespace Sys2Proof

/-- The operations of the opcode table (30_encoding.md R73, R86, R91). -/
inductive Instr
  /-- SYS nnn (41_flow.md R103). -/
  | sys (nnn : Addr)
  /-- CLS (41_flow.md R101). -/
  | cls
  /-- RET (41_flow.md R102). -/
  | ret
  /-- JP nnn (41_flow.md R104). -/
  | jp (nnn : Addr)
  /-- CALL nnn (41_flow.md R105). -/
  | call (nnn : Addr)
  /-- SE Vx, kk (41_flow.md R106). -/
  | seVxKk (x : Reg) (kk : Byte)
  /-- SNE Vx, kk (41_flow.md R107). -/
  | sneVxKk (x : Reg) (kk : Byte)
  /-- SE Vx, Vy (41_flow.md R108). -/
  | seVxVy (x y : Reg)
  /-- LD Vx, kk (42_alu.md R132). -/
  | ldVxKk (x : Reg) (kk : Byte)
  /-- ADD Vx, kk (42_alu.md R133). -/
  | addVxKk (x : Reg) (kk : Byte)
  /-- LD Vx, Vy (42_alu.md R134). -/
  | ldVxVy (x y : Reg)
  /-- OR Vx, Vy (42_alu.md R135). -/
  | orVxVy (x y : Reg)
  /-- AND Vx, Vy (42_alu.md R136). -/
  | andVxVy (x y : Reg)
  /-- XOR Vx, Vy (42_alu.md R137). -/
  | xorVxVy (x y : Reg)
  /-- ADD Vx, Vy (42_alu.md R138). -/
  | addVxVy (x y : Reg)
  /-- SUB Vx, Vy (42_alu.md R139). -/
  | subVxVy (x y : Reg)
  /-- SHR Vx, Vy (42_alu.md R140). -/
  | shrVxVy (x y : Reg)
  /-- SUBN Vx, Vy (42_alu.md R141). -/
  | subnVxVy (x y : Reg)
  /-- SHL Vx, Vy (42_alu.md R142). -/
  | shlVxVy (x y : Reg)
  /-- SNE Vx, Vy (41_flow.md R109). -/
  | sneVxVy (x y : Reg)
  /-- LD I, nnn (43_index_sprite.md R160). -/
  | ldINnn (nnn : Addr)
  /-- JP V0, nnn (41_flow.md R110). -/
  | jpV0 (nnn : Addr)
  /-- RND Vx, kk (42_alu.md R143). -/
  | rnd (x : Reg) (kk : Byte)
  /-- DRW Vx, Vy, n (43_index_sprite.md R161); `n` is the row count, 0..15. -/
  | drw (x y : Reg) (n : Fin 16)
  /-- SKP Vx (44_keys.md R181). -/
  | skp (x : Reg)
  /-- SKNP Vx (44_keys.md R182). -/
  | sknp (x : Reg)
  /-- LD Vx, DT (45_timer_memory.md R190). -/
  | ldVxDt (x : Reg)
  /-- LD Vx, K (45_timer_memory.md R198). -/
  | ldVxK (x : Reg)
  /-- LD DT, Vx (45_timer_memory.md R191). -/
  | ldDtVx (x : Reg)
  /-- LD ST, Vx (45_timer_memory.md R192). -/
  | ldStVx (x : Reg)
  /-- ADD I, Vx (45_timer_memory.md R193). -/
  | addIVx (x : Reg)
  /-- LD F, Vx (45_timer_memory.md R194). -/
  | ldFVx (x : Reg)
  /-- LD B, Vx (45_timer_memory.md R195). -/
  | ldBVx (x : Reg)
  /-- LD [I], Vx (45_timer_memory.md R196). -/
  | ldMemVx (x : Reg)
  /-- LD Vx, [I] (45_timer_memory.md R197). -/
  | ldVxMem (x : Reg)
  /-- SHR Vx, the alias of SHR Vx, V0 (30_encoding.md R91; assumption log 12). -/
  | shrVx (x : Reg)
  /-- SHL Vx, the alias of SHL Vx, V0 (30_encoding.md R91; assumption log 12). -/
  | shlVx (x : Reg)
  deriving DecidableEq, Repr

end Sys2Proof
end

