-- ==== Sys2Proof/WellFormed.lean ====
section
/-! DEFINITION. Which instruction terms are the operation of some word. The operand types bound every field; what is
left are the words that 30_encoding.md gives to a neighbour: SYS never has a low byte E0 or EE (R74), and a shift with
y = 0 is the one-operand form (R91, R83; assumption log 12). -/

namespace Sys2Proof

/-- The family-0 low bytes that are CLS and RET, not SYS (30_encoding.md R74). -/
def family0Key (kk : Byte) : Bool := kk == 0xE0#8 || kk == 0xEE#8

/-- The instruction is the operation of some word under the spec's parameters. -/
def Instr.wf : Instr → Bool
  | .sys nnn => !family0Key (nnn.setWidth 8)
  | .shrVxVy _ y => y != 0
  | .shlVxVy _ y => y != 0
  | .cls | .ret | .jp _ | .call _ | .seVxKk _ _ | .sneVxKk _ _ | .seVxVy _ _ | .ldVxKk _ _ | .addVxKk _ _
  | .ldVxVy _ _ | .orVxVy _ _ | .andVxVy _ _ | .xorVxVy _ _ | .addVxVy _ _ | .subVxVy _ _ | .subnVxVy _ _
  | .sneVxVy _ _ | .ldINnn _ | .jpV0 _ | .rnd _ _ | .drw _ _ _ | .skp _ | .sknp _ | .ldVxDt _ | .ldVxK _
  | .ldDtVx _ | .ldStVx _ | .addIVx _ | .ldFVx _ | .ldBVx _ | .ldMemVx _ | .ldVxMem _ | .shrVx _ | .shlVx _ => true

/-- The configuration's decoder has a word for the instruction: SYS exists under `FAMILY0_OTHER = sys`
(30_encoding.md R74), the key skips under `KEY_DISPATCH = exact` (R76), everything else always. -/
def Config.admits (cfg : Config) : Instr → Bool
  | .sys _ => cfg.family0Other == .sys
  | .skp _ => cfg.keyDispatch == .exact
  | .sknp _ => cfg.keyDispatch == .exact
  | .cls | .ret | .jp _ | .call _ | .seVxKk _ _ | .sneVxKk _ _ | .seVxVy _ _ | .ldVxKk _ _ | .addVxKk _ _
  | .ldVxVy _ _ | .orVxVy _ _ | .andVxVy _ _ | .xorVxVy _ _ | .addVxVy _ _ | .subVxVy _ _ | .shrVxVy _ _
  | .subnVxVy _ _ | .shlVxVy _ _ | .sneVxVy _ _ | .ldINnn _ | .jpV0 _ | .rnd _ _ | .drw _ _ _ | .ldVxDt _
  | .ldVxK _ | .ldDtVx _ | .ldStVx _ | .addIVx _ | .ldFVx _ | .ldBVx _ | .ldMemVx _ | .ldVxMem _ | .shrVx _
  | .shlVx _ => true

/-- The configuration is one 00_scope.md R4 allows: `TIMER_HZ` is a positive frequency. -/
def Config.wf (cfg : Config) : Bool := decide (0 < cfg.timerHz)

end Sys2Proof
end

