-- ==== Sys2Proof/Decode.lean ====
section
/-! DEFINITION. The instruction decoder (30_encoding.md R70 to R80), and after it an encoder written from the formats of
R72 and the keys of R74 to R77. The decoder is total: a word is one operation or is rejected by name. -/

namespace Sys2Proof

/-! ### Fields (30_encoding.md R71) -/

/-- `op = w[15:12]`. -/
def fieldOp (w : Word) : BitVec 4 := w.extractLsb' 12 4
/-- `x = w[11:8]`. -/
def fieldX (w : Word) : Reg := (w.extractLsb' 8 4).toFin
/-- `y = w[7:4]`. -/
def fieldY (w : Word) : Reg := (w.extractLsb' 4 4).toFin
/-- `n = w[3:0]`. -/
def fieldN (w : Word) : Fin 16 := (w.extractLsb' 0 4).toFin
/-- `kk = w[7:0]`. -/
def fieldKk (w : Word) : Byte := w.extractLsb' 0 8
/-- `nnn = w[11:0]`. -/
def fieldNnn (w : Word) : Addr := w.extractLsb' 0 12

/-! ### The decoder -/

/-- Why a word is no instruction. -/
inductive Reject
  /-- The word is `Invalid` (30_encoding.md R79): executing it raises RuntimeDispatchError. -/
  | invalid
  /-- A family-E word under `KEY_DISPATCH = faithful`: "a model taking that value refuses every family-E word"
  (30_encoding.md R76). -/
  | faithfulKeySkip
  deriving DecidableEq, Repr

/-- Why bytes are no instruction. -/
inductive ByteReject
  /-- The first two bytes are a word that is no instruction. -/
  | word (r : Reject)
  /-- Fewer than two bytes were given: an instruction is one 16-bit word (30_encoding.md R70). -/
  | truncated
  deriving DecidableEq, Repr

/-- Family 0, keyed on the low byte (30_encoding.md R74). -/
def decodeFamily0 (cfg : Config) (kk : Byte) (nnn : Addr) : Except Reject Instr :=
  if kk = 0xE0#8 then .ok .cls
  else if kk = 0xEE#8 then .ok .ret
  else match cfg.family0Other with
    | .sys => .ok (.sys nnn)
    | .fault => .error .invalid

/-- Family 8, keyed on the low nibble (30_encoding.md R75); a shift with y = 0 is named by its one-operand form
(R91, assumption log 12). -/
def decodeFamily8 (x y : Reg) (n : Fin 16) : Except Reject Instr :=
  match n.val with
  | 0x0 => .ok (.ldVxVy x y)
  | 0x1 => .ok (.orVxVy x y)
  | 0x2 => .ok (.andVxVy x y)
  | 0x3 => .ok (.xorVxVy x y)
  | 0x4 => .ok (.addVxVy x y)
  | 0x5 => .ok (.subVxVy x y)
  | 0x6 => .ok (if y = 0 then .shrVx x else .shrVxVy x y)
  | 0x7 => .ok (.subnVxVy x y)
  | 0xE => .ok (if y = 0 then .shlVx x else .shlVxVy x y)
  | _ => .error .invalid

/-- Family E, keyed on the low byte (30_encoding.md R76). -/
def decodeFamilyE (cfg : Config) (x : Reg) (kk : Byte) : Except Reject Instr :=
  match cfg.keyDispatch with
  | .faithful => .error .faithfulKeySkip
  | .exact =>
    if kk = 0x9E#8 then .ok (.skp x)
    else if kk = 0xA1#8 then .ok (.sknp x)
    else .error .invalid

/-- Family F, keyed on the low byte (30_encoding.md R77). -/
def decodeFamilyF (x : Reg) (kk : Byte) : Except Reject Instr :=
  match kk.toNat with
  | 0x07 => .ok (.ldVxDt x)
  | 0x0A => .ok (.ldVxK x)
  | 0x15 => .ok (.ldDtVx x)
  | 0x18 => .ok (.ldStVx x)
  | 0x1E => .ok (.addIVx x)
  | 0x29 => .ok (.ldFVx x)
  | 0x33 => .ok (.ldBVx x)
  | 0x55 => .ok (.ldMemVx x)
  | 0x65 => .ok (.ldVxMem x)
  | _ => .error .invalid

/-- `Decode(w)` (30_encoding.md R73). Families 5 and 9 do not look at the low nibble (R78). -/
def decode (cfg : Config) (w : Word) : Except Reject Instr :=
  match (fieldOp w).toNat with
  | 0x0 => decodeFamily0 cfg (fieldKk w) (fieldNnn w)
  | 0x1 => .ok (.jp (fieldNnn w))
  | 0x2 => .ok (.call (fieldNnn w))
  | 0x3 => .ok (.seVxKk (fieldX w) (fieldKk w))
  | 0x4 => .ok (.sneVxKk (fieldX w) (fieldKk w))
  | 0x5 => .ok (.seVxVy (fieldX w) (fieldY w))
  | 0x6 => .ok (.ldVxKk (fieldX w) (fieldKk w))
  | 0x7 => .ok (.addVxKk (fieldX w) (fieldKk w))
  | 0x8 => decodeFamily8 (fieldX w) (fieldY w) (fieldN w)
  | 0x9 => .ok (.sneVxVy (fieldX w) (fieldY w))
  | 0xA => .ok (.ldINnn (fieldNnn w))
  | 0xB => .ok (.jpV0 (fieldNnn w))
  | 0xC => .ok (.rnd (fieldX w) (fieldKk w))
  | 0xD => .ok (.drw (fieldX w) (fieldY w) (fieldN w))
  | 0xE => decodeFamilyE cfg (fieldX w) (fieldKk w)
  | _ => decodeFamilyF (fieldX w) (fieldKk w)

/-! ### Bytes (30_encoding.md R70: "stored big-endian at two consecutive addresses") -/

/-- `{hi, lo}`: the byte at the lower address is the upper half (20_memory.md R55). -/
def wordOfBytes (hi lo : Byte) : Word := hi ++ lo
/-- The byte of a word that is stored at the lower address. -/
def highByte (w : Word) : Byte := w.extractLsb' 8 8
/-- The byte of a word that is stored at the next address. -/
def lowByte (w : Word) : Byte := w.extractLsb' 0 8

/-- The instruction at the head of a list of bytes, with the rest of the list. -/
def decodeBytes (cfg : Config) : List Byte → Except ByteReject (Instr × List Byte)
  | hi :: lo :: rest =>
    match decode cfg (wordOfBytes hi lo) with
    | .ok i => .ok (i, rest)
    | .error r => .error (.word r)
  | [_] | [] => .error .truncated

/-- The bits of a table word as an instruction word: bits at `nbits` and above are 0. -/
def tableWord (nbits w : Nat) : Word := BitVec.ofNat 16 (w % 2 ^ nbits)

/-- What the decoder reads, under the spec's parameters, from the bytes of a table word laid out big-endian. -/
def decodeTableWord (nbits w : Nat) : Option Instr :=
  match decodeBytes Machine.specConfig [highByte (tableWord nbits w), lowByte (tableWord nbits w)] with
  | .ok (i, _) => some i
  | .error _ => none

/-! ### The encoder (formats of 30_encoding.md R72) -/

/-- A 4-bit index as the nibble that encodes it. -/
def nibble (x : Fin 16) : BitVec 4 := BitVec.ofFin x

/-- Format A: family, address. -/
def formatA (op : BitVec 4) (nnn : Addr) : Word := op ++ nnn
/-- Formats XK, XS and S0: family, register, immediate or sub-family key byte. -/
def formatXK (op : BitVec 4) (x : Reg) (kk : Byte) : Word := op ++ nibble x ++ kk
/-- Formats XY, XYS and XYN: family, two registers, low nibble. -/
def formatXYN (op : BitVec 4) (x y : Reg) (n : Fin 16) : Word := op ++ nibble x ++ nibble y ++ nibble n

/-- The canonical word of an instruction (30_encoding.md R86, R91; ignored nibbles are 0, R78, R81). -/
def encode : Instr → Word
  | .sys nnn => formatA 0x0 nnn
  | .cls => formatXK 0x0 0 0xE0
  | .ret => formatXK 0x0 0 0xEE
  | .jp nnn => formatA 0x1 nnn
  | .call nnn => formatA 0x2 nnn
  | .seVxKk x kk => formatXK 0x3 x kk
  | .sneVxKk x kk => formatXK 0x4 x kk
  | .seVxVy x y => formatXYN 0x5 x y 0x0
  | .ldVxKk x kk => formatXK 0x6 x kk
  | .addVxKk x kk => formatXK 0x7 x kk
  | .ldVxVy x y => formatXYN 0x8 x y 0x0
  | .orVxVy x y => formatXYN 0x8 x y 0x1
  | .andVxVy x y => formatXYN 0x8 x y 0x2
  | .xorVxVy x y => formatXYN 0x8 x y 0x3
  | .addVxVy x y => formatXYN 0x8 x y 0x4
  | .subVxVy x y => formatXYN 0x8 x y 0x5
  | .shrVxVy x y => formatXYN 0x8 x y 0x6
  | .subnVxVy x y => formatXYN 0x8 x y 0x7
  | .shlVxVy x y => formatXYN 0x8 x y 0xE
  | .sneVxVy x y => formatXYN 0x9 x y 0x0
  | .ldINnn nnn => formatA 0xA nnn
  | .jpV0 nnn => formatA 0xB nnn
  | .rnd x kk => formatXK 0xC x kk
  | .drw x y n => formatXYN 0xD x y n
  | .skp x => formatXK 0xE x 0x9E
  | .sknp x => formatXK 0xE x 0xA1
  | .ldVxDt x => formatXK 0xF x 0x07
  | .ldVxK x => formatXK 0xF x 0x0A
  | .ldDtVx x => formatXK 0xF x 0x15
  | .ldStVx x => formatXK 0xF x 0x18
  | .addIVx x => formatXK 0xF x 0x1E
  | .ldFVx x => formatXK 0xF x 0x29
  | .ldBVx x => formatXK 0xF x 0x33
  | .ldMemVx x => formatXK 0xF x 0x55
  | .ldVxMem x => formatXK 0xF x 0x65
  | .shrVx x => formatXYN 0x8 x 0 0x6
  | .shlVx x => formatXYN 0x8 x 0 0xE

end Sys2Proof
end

