-- ==== Sys2Proof/Machine/Codec.lean ====
section
/-! DEFINITION. The codec (30_encoding.md R81 to R84): wildcard patterns and mnemonic templates. The block does not
execute through it (R95); its `decode` supplies the mnemonic of the trace port, its `encode` turns a cleaned line into a
word. In patterns and templates a lower-case letter n, x, y or k is a wildcard nibble and everything else is fixed. -/

namespace Sys2Proof.Machine

/-- One instruction definition (30_encoding.md R81). -/
structure Definition where
  pattern : String
  template : String
  deriving DecidableEq, Repr

/-- The 37 definitions of 30_encoding.md R86 and R91 (R92). -/
def definitions : List Definition :=
  [⟨"0nnn", "SYS nnn"⟩, ⟨"00E0", "CLS"⟩, ⟨"00EE", "RET"⟩, ⟨"1nnn", "JP nnn"⟩, ⟨"2nnn", "CALL nnn"⟩,
   ⟨"3xkk", "SE Vx, kk"⟩, ⟨"4xkk", "SNE Vx, kk"⟩, ⟨"5xy0", "SE Vx, Vy"⟩, ⟨"6xkk", "LD Vx, kk"⟩,
   ⟨"7xkk", "ADD Vx, kk"⟩]
  ++ [⟨"8xy0", "LD Vx, Vy"⟩, ⟨"8xy1", "OR Vx, Vy"⟩, ⟨"8xy2", "AND Vx, Vy"⟩, ⟨"8xy3", "XOR Vx, Vy"⟩,
   ⟨"8xy4", "ADD Vx, Vy"⟩, ⟨"8xy5", "SUB Vx, Vy"⟩, ⟨"8xy6", "SHR Vx, Vy"⟩, ⟨"8xy7", "SUBN Vx, Vy"⟩,
   ⟨"8xyE", "SHL Vx, Vy"⟩, ⟨"8x06", "SHR Vx"⟩, ⟨"8x0E", "SHL Vx"⟩]
  ++ [⟨"9xy0", "SNE Vx, Vy"⟩, ⟨"Annn", "LD I, nnn"⟩, ⟨"Bnnn", "JP V0, nnn"⟩, ⟨"Cxkk", "RND Vx, kk"⟩,
   ⟨"Dxyn", "DRW Vx, Vy, n"⟩, ⟨"Ex9E", "SKP Vx"⟩, ⟨"ExA1", "SKNP Vx"⟩]
  ++ [⟨"Fx07", "LD Vx, DT"⟩, ⟨"Fx0A", "LD Vx, K"⟩, ⟨"Fx15", "LD DT, Vx"⟩, ⟨"Fx18", "LD ST, Vx"⟩,
   ⟨"Fx1E", "ADD I, Vx"⟩, ⟨"Fx29", "LD F, Vx"⟩, ⟨"Fx33", "LD B, Vx"⟩, ⟨"Fx55", "LD [I], Vx"⟩,
   ⟨"Fx65", "LD Vx, [I]"⟩]

/-- A wildcard letter of a pattern or a template. -/
def isWild (c : Char) : Bool := c == 'n' || c == 'x' || c == 'y' || c == 'k'

/-- An upper-case hex digit (30_encoding.md R81: "each field in uppercase hex"). -/
def hexDigit (d : Nat) : Char := if d < 10 then Char.ofNat (48 + d) else Char.ofNat (55 + d)

/-- The value of an upper-case hex digit. -/
def hexValue (c : Char) : Option Nat :=
  if '0' ≤ c ∧ c ≤ '9' then some (c.toNat - 48)
  else if 'A' ≤ c ∧ c ≤ 'F' then some (c.toNat - 55)
  else none

/-- The four nibbles of a word, most significant first (00_scope.md R5). -/
def nibbles (w : Word) : List Nat := [w.toNat / 4096, w.toNat / 256 % 16, w.toNat / 16 % 16, w.toNat % 16]

/-- The wildcard nibbles of digits that agree with a pattern's fixed nibbles, each under its letter. -/
def matchPattern : List Char → List Nat → Option (List (Char × Nat))
  | [], [] => some []
  | p :: ps, d :: ds =>
    if isWild p then (matchPattern ps ds).map (fun fs => (p, d) :: fs)
    else if hexDigit d = p then matchPattern ps ds
    else none
  | _, _ => none

/-- How many nibbles of a pattern are fixed (30_encoding.md R83). -/
def fixedCount (d : Definition) : Nat := (d.pattern.toList.filter (fun c => !isWild c)).length

/-- The first field under a letter, and the fields without it. -/
def takeField (c : Char) : List (Char × Nat) → Option (Nat × List (Char × Nat))
  | [] => none
  | f :: fs => if f.1 = c then some (f.2, fs) else (takeField c fs).map (fun r => (r.1, f :: r.2))

/-- A template with the fields put in its wildcards. -/
def renderTemplate : List Char → List (Char × Nat) → List Char
  | [], _ => []
  | t :: ts, fs =>
    if isWild t then
      match takeField t fs with
      | some (d, rest) => hexDigit d :: renderTemplate ts rest
      | none => t :: renderTemplate ts fs
    else t :: renderTemplate ts fs

/-- The definitions whose fixed nibbles a word has, with the fields it gives them. -/
def candidates (w : Word) : List (Definition × List (Char × Nat)) :=
  definitions.filterMap (fun d => (matchPattern d.pattern.toList (nibbles w)).map (fun fs => (d, fs)))

/-- Of two candidates, the one with more fixed nibbles (30_encoding.md R83). -/
def moreFixed (best : Option (Definition × List (Char × Nat))) (c : Definition × List (Char × Nat)) :
    Option (Definition × List (Char × Nat)) :=
  match best with
  | none => some c
  | some b => if fixedCount b.1 < fixedCount c.1 then some c else some b

/-- The codec's `decode(w)`: the mnemonic text, or none where no definition matches (30_encoding.md R81, R83). -/
def codecDecode (w : Word) : Option String :=
  ((candidates w).foldl moreFixed none).map (fun c => String.ofList (renderTemplate c.1.template.toList c.2))

/-- A blank between tokens. -/
def isBlank (c : Char) : Bool := c == ' ' || c == '\t'

/-- Runs of blanks as one space, none at the end (30_encoding.md R82: "tokenises a cleaned line by whitespace"). -/
def squeeze : List Char → List Char
  | [] => []
  | c :: cs =>
    if isBlank c then
      match squeeze cs with
      | [] => []
      | d :: ds => if d = ' ' then d :: ds else ' ' :: d :: ds
    else c :: squeeze cs

/-- A line in upper case, its tokens one space apart (30_encoding.md R86: "Text is case-insensitive"). -/
def cleanLine (line : String) : List Char :=
  let cs := squeeze (line.toList.map Char.toUpper)
  if cs.head? = some ' ' then cs.drop 1 else cs

/-- The fields of a line that has a template's fixed text. -/
def matchTemplate : List Char → List Char → Option (List (Char × Nat))
  | [], [] => some []
  | t :: ts, c :: cs =>
    if isWild t then
      match hexValue c with
      | some d => (matchTemplate ts cs).map (fun fs => (t, d) :: fs)
      | none => none
    else if t = c then matchTemplate ts cs
    else none
  | _, _ => none

/-- A pattern with the fields put in its wildcards, as a number. -/
def substitute : List Char → List (Char × Nat) → Nat → Option Nat
  | [], _, acc => some acc
  | p :: ps, fs, acc =>
    if isWild p then
      match takeField p fs with
      | some (d, rest) => substitute ps rest (16 * acc + d)
      | none => none
    else
      match hexValue p with
      | some d => substitute ps fs (16 * acc + d)
      | none => none

/-- The codec's `encode(line)`: the word of the definition whose template the line has, or none (30_encoding.md R82). -/
def codecEncode (line : String) : Option Word :=
  definitions.findSome? (fun d =>
    match matchTemplate d.template.toList (cleanLine line) with
    | some fs => (substitute d.pattern.toList fs 0).map (BitVec.ofNat 16)
    | none => none)

end Sys2Proof.Machine
end

