-- ==== Sys2Proof/Machine/State.lean ====
section
/-! DEFINITION. The state of the block (10_state.md), the reasons a step can stop, and the state after reset. Beside the
spec's own state stand, each marked as the model's: the configuration, the cycle in progress, the output ports and the
environment's answers. State is plain data. -/

namespace Sys2Proof.Machine

/-! ### Faults (60_exceptions.md section 1) -/

/-- The faults the block raises (60_exceptions.md R220). -/
inductive FaultKind
  | runtimeDispatchError
  | stackOverflow
  | stackUnderflow
  deriving DecidableEq, Repr

/-- What a fault records (60_exceptions.md R221): its kind, the opcode `w`, and the fetch address `a`. -/
structure FaultRecord where
  kind : FaultKind
  opcode : Word
  addr : Word
  deriving DecidableEq, Repr

/-- The run state (10_state.md R30). -/
inductive RunState
  /-- The next cycle starts with a fetch. -/
  | running
  /-- LD Vx, K is polling; the current cycle has not completed. -/
  | waitingKey (x : Reg)
  /-- A fault was raised; terminal until reset. -/
  | faulted (r : FaultRecord)
  /-- The host stopped the run between cycles. -/
  | stopped
  deriving DecidableEq, Repr

/-! ### Registers that nothing has written -/

/-- The marks of `RESET_REGS = unwritten`: which of V0..VF, and whether I, hold no value yet (10_state.md R41). -/
structure Unwritten where
  v : Vector Bool 16
  i : Bool
  deriving DecidableEq, Repr

/-- The marks after reset: every V register and I under `RESET_REGS = unwritten`, none under `zero` (10_state.md R41). -/
def resetMarks (r : ResetRegs) : Unwritten where
  v := Vector.replicate 16 (r == .unwritten)
  i := r == .unwritten

/-! ### Ports and environment -/

/-- V0..VF, I, PC, DT and ST as the trace presents them (60_exceptions.md R237), with the marks of the registers that hold no
value (10_state.md R41; assumption log 20). -/
structure Snapshot where
  v : Vector Byte 16
  i : Word
  pc : Word
  dt : Byte
  st : Byte
  unwritten : Unwritten
  deriving DecidableEq, Repr

/-- One call of the trace port (60_exceptions.md R237). -/
structure TraceRecord where
  pc : Word
  opcode : Word
  mnemonic : Option String
  snapshot : Snapshot
  deriving DecidableEq, Repr

/-- The environment of the block (00_scope.md R10 to R12): answers still to come, then free values (assumption log 3).
The clock is its latest reading and the time that passes before each further one, so that it never goes back
(60_exceptions.md R231, R235; assumption log 4). -/
structure Env where
  /-- The answers of the key polls to come. -/
  keys : List (Option Key)
  /-- The random bytes to come. -/
  rands : List Byte
  /-- The milliseconds that pass before each clock reading to come. -/
  waits : List Nat
  /-- The clock's latest reading, in milliseconds. -/
  nowMs : Int
  /-- How many free values have been drawn. -/
  draws : Nat
  deriving DecidableEq, Repr

/-! ### State -/

/-- Memory as data: the cells that differ from the reset contents (20_memory.md R50; assumption log 1). -/
abbrev Memory := List Host.Cell

/-- The state of the block. -/
structure State where
  /-- V0..VF (10_state.md R20, R21). -/
  v : Vector Byte 16
  /-- I (10_state.md R22). -/
  i : Word
  /-- PC, a 16-bit register with values in [0, 4096) (10_state.md R23, R24). -/
  pc : Word
  /-- DT (10_state.md R25). -/
  dt : Byte
  /-- ST (10_state.md R26). -/
  st : Byte
  /-- The call stack, oldest entry first (10_state.md R27). -/
  stack : List Addr
  /-- The redraw flag (10_state.md R28). -/
  redraw : Bool
  /-- The Clock reading of the last tick; none before the run starts (10_state.md R29, R45). -/
  lastTickMs : Option Int
  /-- The run state (10_state.md R30). -/
  run : RunState
  /-- The memory, framebuffer included (10_state.md R31, 20_memory.md R50): the cells that differ from the reset
  contents, by rising address (assumption log 1). -/
  mem : Memory
  /-- The configuration (00_scope.md R4; assumption log 9). -/
  cfg : Config
  /-- The registers marked unwritten (10_state.md R41; assumption log 20). -/
  unwritten : Unwritten
  /-- `a` of the current cycle (30_encoding.md R94; assumption log 7). -/
  fetchAddr : Word
  /-- `w` of the current cycle (30_encoding.md R94; assumption log 7). -/
  fetchWord : Word
  /-- The frame the last step presented on the `render` port (00_scope.md R13; assumption log 8). -/
  renderOut : Option (List Byte)
  /-- The record the last step presented on the `trace` port (00_scope.md R14; assumption log 8). -/
  traceOut : Option TraceRecord
  /-- The record the last step presented on the `fault` port (00_scope.md R15; assumption log 8). -/
  faultOut : Option FaultRecord
  /-- The environment's answers (assumption logs 3 and 4). -/
  env : Env
  deriving DecidableEq, Repr

/-- Why a step is the last one: no cycle runs from the state. -/
inductive Fault
  /-- Raised by step when the run state is Faulted: "terminal: no cycle runs from it" (60_exceptions.md R223). The fault
  itself was taken as a next state before. Safe: the block does not go on either. -/
  | halted (r : FaultRecord)
  /-- Raised by step when the host has stopped the run (60_exceptions.md R238). Safe: the spec gives no resume. -/
  | stopped
  /-- Raised by step, under `RESET_REGS = unwritten` only, for an instruction that reads V0..VF or I before its first write:
  "a model marks V0..VF and I unwritten and faults a read of one before its first write" (10_state.md R41;
  92_eei_decisions.md D18; 93_implementation_defined.md I14; assumption log 20). Never raised under
  the default `zero`, whatever the state.
  It carries the instruction's word and address. Safe: it stops where the block goes on with some value. -/
  | unwrittenRead (opcode : Word) (addr : Word)
  deriving DecidableEq, Repr

/-- Why an instruction has no meaning. -/
inductive Refusal
  /-- Raised by an arm of exec that has no meaning yet. Safe. -/
  | notModelled (mnemonic : String)
  /-- Raised by step for a family-E word under `KEY_DISPATCH = faithful`, which 30_encoding.md R76 says a model refuses.
  Safe: it stops where the reference goes on. -/
  | faithfulKeySkip (opcode : Word)
  deriving DecidableEq, Repr

/-- The environment at reset: no answer is fixed, so every answer is a free value (DESIGN CHOICE, assumption logs 3, 4). -/
def Env.initial : Env where
  keys := []
  rands := []
  waits := []
  nowMs := 0
  draws := 0

/-- The state right after reset (10_state.md R40 to R45, 70_reset_and_hazards.md R260): before any ROM is loaded, with
the run start of R263 still to come (assumption log 5). -/
def State.reset : State where
  v := Vector.replicate 16 0
  i := 0
  pc := 0x200
  dt := 0
  st := 0
  stack := []
  redraw := false
  lastTickMs := none
  run := .running
  mem := []
  cfg := specConfig
  unwritten := resetMarks specConfig.resetRegs
  fetchAddr := 0
  fetchWord := 0
  renderOut := none
  traceOut := none
  faultOut := none
  env := Env.initial

end Sys2Proof.Machine
end

