-- ==== Sys2Proof/Machine/Environment.lean ====
section
/-! DEFINITION. The draws from the environment (00_scope.md R5, R10 to R12): the next answer of each collaborator, and
the environment once it has been taken. An answer is the head of its list, or a free value where the list is empty
(assumption logs 3, 4). -/

namespace Sys2Proof.Machine

/-- The environment after one free value has been drawn. -/
def afterFree (e : Env) : Env := { e with draws := e.draws + 1 }

/-- `Draw.key()`: the answer of one `Input.pollKey()` (44_keys.md R180). -/
def keyAnswer (e : Env) : Option Key :=
  match e.keys with
  | k :: _ => k
  | [] => Config.freeKey e.draws

/-- The environment after one key poll. -/
def afterKey (e : Env) : Env :=
  match e.keys with
  | _ :: ks => { e with keys := ks }
  | [] => afterFree e

/-- `Draw.rand8()` (60_exceptions.md R236). -/
def randAnswer (e : Env) : Byte :=
  match e.rands with
  | r :: _ => r
  | [] => Config.freeRand8 e.draws

/-- The environment after one random byte. -/
def afterRand (e : Env) : Env :=
  match e.rands with
  | _ :: rs => { e with rands := rs }
  | [] => afterFree e

/-- The milliseconds that pass before the next clock reading: a natural number, so that the clock never goes back. -/
def nextWait (e : Env) : Nat :=
  match e.waits with
  | d :: _ => d
  | [] => Config.freeElapsedMs e.draws

/-- `now_ms`: the next clock reading (60_exceptions.md R235). -/
def clockAnswer (e : Env) : Int := e.nowMs + nextWait e

/-- The environment after one clock reading. -/
def afterClock (e : Env) : Env :=
  match e.waits with
  | _ :: ds => { e with waits := ds, nowMs := clockAnswer e }
  | [] => { afterFree e with nowMs := clockAnswer e }

end Sys2Proof.Machine
end

