-- ==== Sys2Proof/Machine/Memory.lean ====
section
/-! DEFINITION. The 4096-byte memory (20_memory.md): its reset contents, one read and one write of a byte, runs of
bytes, instruction fetch, and the pixels of the framebuffer. Every wider access is built from the byte accesses here. -/

namespace Sys2Proof.Machine

/-! ### Reset contents -/

/-- What an unlisted address reads as: the memory's contents after reset under the spec's parameters (10_state.md R42, R43;
assumption log 1). -/
def background (k : Nat) : Byte :=
  if k < 80 then (glyphTable.getD (k / Config.glyphStride) []).getD (k % Config.glyphStride) 0 else 0

/-! ### The canonical form -/

/-- Addresses strictly rising and inside the address space, and no cell that equals the reset contents. -/
abbrev Memory.wf (m : Memory) : Prop :=
  m.Pairwise (fun c d => c.1 < d.1) ∧ ∀ c ∈ m, c.1 < Config.memSize ∧ c.2 ≠ background c.1

/-! ### One byte -/

/-- The byte at a cell key. -/
def cellAt : Memory → Nat → Byte
  | [], k => background k
  | c :: m, k => if c.1 = k then c.2 else cellAt m k

/-- A cell put at its place among cells of rising keys. -/
def cellInsert (k : Nat) (b : Byte) : Memory → Memory
  | [] => [(k, b)]
  | c :: m => if k < c.1 then (k, b) :: c :: m else c :: cellInsert k b m

/-- The memory with one key's byte replaced, in canonical form. -/
def cellSet (m : Memory) (k : Nat) (b : Byte) : Memory :=
  let rest := m.filter (fun c => c.1 != k)
  if b = background k then rest else cellInsert k b rest

/-- `MemRead(addr, 1)`: the byte at `addr mod 4096` (00_scope.md R5, 20_memory.md R51). -/
def memRead (m : Memory) (addr : Nat) : Byte := cellAt m (addr % Config.memSize)

/-- `MemWrite(addr, 1, v)`: the byte at `addr mod 4096` becomes `v` (00_scope.md R5, 20_memory.md R51). -/
def memWrite (m : Memory) (addr : Nat) (b : Byte) : Memory := cellSet m (addr % Config.memSize) b

/-! ### Runs of bytes -/

/-- Bytes written one after the other at rising addresses, each modulo 4096 (20_memory.md R51, R58). -/
def memWriteList (m : Memory) (addr : Nat) : List Byte → Memory
  | [] => m
  | b :: bs => memWriteList (memWrite m addr b) (addr + 1) bs

/-- `Fetch(a)`: big-endian, the second byte at `(a + 1) mod 4096`, no alignment check (20_memory.md R55 to R57). -/
def memFetch (m : Memory) (addr : Nat) : Word := wordOfBytes (memRead m addr) (memRead m (addr + 1))

/-- A word stored where `memFetch` reads it (20_memory.md R55). -/
def memPlaceWord (m : Memory) (addr : Nat) (w : Word) : Memory := memWriteList m addr [highByte w, lowByte w]

/-- The memory after reset: `GLYPH_BYTES` at [0, 80), 0 elsewhere (10_state.md R42, R43). Under the spec's own `GLYPH_BYTES`
no cell differs from the reset contents, and the list is empty. -/
def resetMemory (cfg : Config) : Memory := memWriteList [] 0 cfg.glyphBytes.toList

/-! ### The framebuffer (20_memory.md R53) -/

/-- `FbByte(px, py)`. -/
def fbByte (px py : Nat) : Nat := Config.fbBase + 8 * py + px / 8

/-- `FbBit(px, py)`. -/
def fbBit (px : Nat) : Nat := 7 - px % 8

/-- `Pixel(px, py)`: whether the pixel is lit. -/
def pixel (m : Memory) (px py : Nat) : Bool := (memRead m (fbByte px py)).getLsbD (fbBit px)

/-- The pixel toggled: `MemWrite(b, 1, old ^ (1 << k))` of 43_index_sprite.md R161. -/
def togglePixel (m : Memory) (px py : Nat) : Memory :=
  memWrite m (fbByte px py) (memRead m (fbByte px py) ^^^ (1#8 <<< fbBit px))

/-- The 256 framebuffer bytes, 0xF00 first (60_exceptions.md R233). -/
def framebuffer (m : Memory) : List Byte :=
  (List.range Config.fbSize).map (fun k => memRead m (Config.fbBase + k))

/-- `for b in 0xF00 .. 0xFFF: MemWrite(b, 1, 0)` (41_flow.md R101): no cell of the framebuffer is left, so each of its bytes
reads as the reset contents, which are 0 there. It reads as the loop of byte writes does
(`memRead_clearFramebuffer_eq_writes`). -/
def clearFramebuffer (m : Memory) : Memory := m.filter (fun c => decide (c.1 < Config.fbBase))

end Sys2Proof.Machine
end

