-- ==== Sys2Proof/Machine/Ops.lean ====
section
/-! DEFINITION. The named operations over the registers, the stack and the run state that the meanings share: register
access, Skip, Push and Pop with their faults, and the entry of a fault. -/

namespace Sys2Proof.Machine

/-! ### V registers and I -/

/-- `V[x]` (00_scope.md R5). -/
def getV (s : State) (x : Reg) : Byte := s.v[x]

/-- `V[x] <- b` (00_scope.md R5). -/
def setV (s : State) (x : Reg) (b : Byte) : State := { s with v := s.v.set x b }

/-- The index of VF, the flag register (10_state.md R21). -/
def vf : Reg := 15

/-- `V[x] <- result`, then `VF <- flag` (42_alu.md R131: the result first, the flag second). -/
def setVFlag (s : State) (x : Reg) (result flag : Byte) : State := setV (setV s x result) vf flag

/-- `I <- w`. -/
def setI (s : State) (w : Word) : State := { s with i := w }

/-! ### PC -/

/-- A value reduced modulo 4096 (10_state.md R23: every write of PC is reduced modulo 4096). -/
def wrap12 (w : Word) : Word := w &&& 0x0FFF#16

/-- `PC <- target`. -/
def setPc (s : State) (target : Word) : State := { s with pc := target }

/-- The address two bytes on, modulo 4096 (30_encoding.md R94). -/
def nextPc (a : Word) : Word := wrap12 (a + 2#16)

/-- `Skip()` (41_flow.md R100). -/
def skip (s : State) : State := setPc s (nextPc s.pc)

/-- `if c: Skip()`. -/
def skipIf (c : Bool) (s : State) : State := if c then skip s else s

/-! ### Faults -/

/-- `raise Fault(kind, ...)` (60_exceptions.md R221): the run state and the fault port take the record of the current
cycle's word and fetch address, and nothing else changes. There is no vector and no handler, and no return from a fault:
only the host's reset or reload leaves it (R223; `hostReset`, `hostReload`). -/
def raiseFault (kind : FaultKind) (s : State) : State :=
  let r : FaultRecord := { kind := kind, opcode := s.fetchWord, addr := s.fetchAddr }
  { s with run := .faulted r, faultOut := some r }

/-- The code of a fault (60_exceptions.md R220). -/
def faultCode : FaultKind → Nat
  | .runtimeDispatchError => 1
  | .stackOverflow => 2
  | .stackUnderflow => 3

/-! ### The call stack (10_state.md R27) -/

/-- `len(stack) = STACK_DEPTH`; never under `STACK_DEPTH = unbounded`. -/
def stackFull (s : State) : Bool :=
  match s.cfg.stackDepth with
  | none => false
  | some d => s.stack.length == d

/-- `Push(PC)`, then `PC <- target`, or the StackOverflow fault (41_flow.md R105). -/
def callTo (target : Word) (s : State) : State :=
  if stackFull s then raiseFault .stackOverflow s
  else { s with stack := s.stack ++ [s.pc.setWidth 12], pc := target }

/-- `PC <- Pop()`, or the StackUnderflow fault (41_flow.md R102). -/
def returnFrom (s : State) : State :=
  match s.stack.getLast? with
  | none => raiseFault .stackUnderflow s
  | some a => { s with stack := s.stack.dropLast, pc := a.setWidth 16 }

/-! ### Memory of the state -/

/-- Bytes stored at rising addresses. -/
def storeBytes (s : State) (addr : Nat) (bs : List Byte) : State := { s with mem := memWriteList s.mem addr bs }

/-- `for b in 0xF00 .. 0xFFF: MemWrite(b, 1, 0)`, then `redraw <- 1` (41_flow.md R101). -/
def clearScreen (s : State) : State :=
  { s with mem := clearFramebuffer s.mem, redraw := true }

/-- `for i in 0 .. n-1: V[i] <- MemRead(addr + i, 1)` (45_timer_memory.md R197). -/
def loadRegs (s : State) (addr n : Nat) : State :=
  { s with v := Vector.ofFn (fun r : Reg => if r.val < n then memRead s.mem (addr + r.val) else getV s r) }

/-! ### The key poll of LD Vx, K (45_timer_memory.md R198) -/

/-- One poll: a key is written to `V[x]` and ends the wait, no key leaves the block in `WaitingKey(x)`. -/
def pollKey (x : Reg) (s : State) : State :=
  match keyAnswer s.env with
  | some k => { setV s x (BitVec.ofNat 8 k.val) with run := .running, env := afterKey s.env }
  | none => { s with run := .waitingKey x, env := afterKey s.env }

end Sys2Proof.Machine
end

