-- ==== Sys2Proof/Machine/Cycle.lean ====
section
/-! DEFINITION. What a cycle does around the instruction (30_encoding.md R94): the run start, the fetch and the PC
advance before it, and after it the trace, the redraw point and the timer check, in that order. -/

namespace Sys2Proof.Machine

/-! ### Before the instruction -/

/-- The output ports, with nothing presented yet in this step (assumption log 8). -/
def clearPorts (s : State) : State := { s with renderOut := none, traceOut := none, faultOut := none }

/-- `lastTickMs <- now_ms` when the run loop starts (70_reset_and_hazards.md R263); nothing once it has started
(assumption log 5). -/
def runStart (s : State) : State :=
  match s.lastTickMs with
  | some _ => s
  | none => { s with lastTickMs := some (clockAnswer s.env), env := afterClock s.env }

/-- `a <- PC; w <- Fetch(a); PC <- (a + 2) mod 4096` (30_encoding.md R94). -/
def fetchAdvance (s : State) : State :=
  { s with pc := nextPc s.pc, fetchAddr := s.pc, fetchWord := memFetch s.mem s.pc.toNat }

/-- The state the decoder and the instruction see in a cycle that starts in `s`. -/
def beginCycle (s : State) : State := fetchAdvance (runStart (clearPorts s))

/-! ### After the instruction -/

/-- The registers as the trace presents them (60_exceptions.md R237). -/
def snapshotOf (s : State) : Snapshot := { v := s.v, i := s.i, pc := s.pc, dt := s.dt, st := s.st, unwritten := s.unwritten }

/-- `if tracing: Trace(a, w)` (60_exceptions.md R237). -/
def tracePoint (s : State) : State :=
  if s.cfg.tracing then
    { s with traceOut := some { pc := s.fetchAddr, opcode := s.fetchWord, mnemonic := codecDecode s.fetchWord,
                                snapshot := snapshotOf s } }
  else s

/-- `if redraw: Render()` (60_exceptions.md R233). -/
def renderPoint (s : State) : State :=
  if s.redraw then { s with renderOut := some (framebuffer s.mem), redraw := false } else s

/-- `now - last >= periodMs` with `periodMs = 1000 / TIMER_HZ`, without the division (60_exceptions.md R227): with the
frequency as a fraction, both sides are multiplied out (`periodElapsed_iff`). -/
def periodElapsed (cfg : Config) (last now : Int) : Bool :=
  decide (1000 * (cfg.timerHz.den : Int) ≤ (now - last) * cfg.timerHz.num)

/-- A timer after a check: one less on a tick, floored at 0 (60_exceptions.md R228). -/
def countdown (tick : Bool) (d : Byte) : Byte := if d = 0 then 0 else if tick then d - 1 else d

/-- Whether the timer check of a cycle ticks; before the run start no period is in progress. -/
def ticks (s : State) : Bool :=
  match s.lastTickMs with
  | none => false
  | some last => periodElapsed s.cfg last (clockAnswer s.env)

/-- `TimerCheck()` (60_exceptions.md R227). -/
def timerCheck (s : State) : State :=
  { s with
    dt := countdown (ticks s) s.dt
    st := countdown (ticks s) s.st
    lastTickMs := if ticks s then some (clockAnswer s.env) else s.lastTickMs
    env := afterClock s.env }

/-- The rest of a cycle whose instruction left the block Running. A fault or a key wait has not completed the cycle:
none of its steps run (30_encoding.md R96, 45_timer_memory.md R198). -/
def finishCycle (s : State) : State :=
  match s.run with
  | .running => timerCheck (renderPoint (tracePoint s))
  | .waitingKey _ | .faulted _ | .stopped => s

end Sys2Proof.Machine
end

