-- ==== Sys2Proof/Machine/Flags.lean ====
section
/-! DEFINITION. The flag values that instructions write to VF (10_state.md R21), each from the values before the
instruction (42_alu.md R131). -/

namespace Sys2Proof.Machine

/-- A flag as the byte VF holds. -/
def flagByte (c : Bool) : Byte := if c then 1 else 0

/-- Carry of ADD: the exact sum exceeds 255 (42_alu.md R138). -/
def carryFlag (a b : Byte) : Byte := flagByte (decide (a.toNat + b.toNat > 255))

/-- Not-borrow of SUB and SUBN: the minuend is strictly greater (42_alu.md R139, R141). -/
def notBorrowFlag (minuend subtrahend : Byte) : Byte := flagByte (decide (minuend.toNat > subtrahend.toNat))

/-- The bit SHR drops (42_alu.md R140). -/
def droppedLowFlag (src : Byte) : Byte := src &&& 1#8

/-- The bit SHL drops (42_alu.md R142). -/
def droppedHighFlag (src : Byte) : Byte := src >>> 7

/-- Collision of DRW (43_index_sprite.md R161). -/
def collisionFlag (hit : Bool) : Byte := flagByte hit

end Sys2Proof.Machine
end

