-- ==== Sys2Proof/Machine/Operands.lean ====
section
/-! DEFINITION. The operand forms: what a field of the word or an implicit register supplies to a meaning. A register
operand is `getV` and an immediate byte is the field itself; the forms that compute something stand here. -/

namespace Sys2Proof.Machine

/-- A 12-bit literal as a 16-bit value: `zext_16(nnn)` (30_encoding.md R71, 43_index_sprite.md R160). -/
def addrOperand (nnn : Addr) : Word := nnn.setWidth 16

/-- The target of JP V0, nnn: `(nnn + V[0]) mod 4096` (41_flow.md R110). -/
def jumpV0Target (s : State) (nnn : Addr) : Word := wrap12 (addrOperand nnn + (getV s 0).setWidth 16)

/-- The address in I; the memory accesses reduce it modulo 4096 (10_state.md R22, 20_memory.md R51). -/
def indexAddr (s : State) : Nat := s.i.toNat

/-- The source of a shift (42_alu.md R140, R142, `SHIFT_SOURCE`). -/
def shiftOperand (s : State) (x y : Reg) : Byte :=
  match s.cfg.shiftSource with
  | .vx => getV s x
  | .vy => getV s y

/-- The glyph number in a register (45_timer_memory.md R194, `GLYPH_INDEX`). -/
def glyphNumber (s : State) (x : Reg) : Nat :=
  match s.cfg.glyphIndex with
  | .full => (getV s x).toNat
  | .lowNibble => (getV s x).toNat % 16

/-- The address of the glyph for a register's value: stride 5 (45_timer_memory.md R194). -/
def glyphOperand (s : State) (x : Reg) : Word := BitVec.ofNat 16 (Config.glyphStride * glyphNumber s x)

/-- The decimal digits of a byte, hundreds first (45_timer_memory.md R195). -/
def bcdDigits (b : Byte) : List Byte :=
  [BitVec.ofNat 8 (b.toNat / 100), BitVec.ofNat 8 (b.toNat / 10 % 10), BitVec.ofNat 8 (b.toNat % 10)]

/-- The registers V0..Vx in order (45_timer_memory.md R196: inclusive of Vx). -/
def regsUpTo (s : State) (x : Reg) : List Byte := s.v.toList.take (x.val + 1)

/-- `k ≠ none and k = V[x]` (44_keys.md R181). -/
def keyMatches (k : Option Key) (b : Byte) : Bool :=
  match k with
  | none => false
  | some k => k.val == b.toNat

end Sys2Proof.Machine
end

