-- ==== Sys2Proof/Machine/Alu.lean ====
section
/-! DEFINITION. Immediate loads, the register ALU and RND (42_alu.md). Results are modulo 256 (R130); an instruction
that writes a result and a flag takes both from the values before it and writes the flag last (R131). -/

namespace Sys2Proof.Machine

/-- LD Vx, kk (42_alu.md R132). -/
def execLdVxKk (x : Reg) (kk : Byte) (s : State) : Host.Outcome State Fault Refusal := .next (setV s x kk)

/-- ADD Vx, kk: no flag (42_alu.md R133). -/
def execAddVxKk (x : Reg) (kk : Byte) (s : State) : Host.Outcome State Fault Refusal :=
  .next (setV s x (getV s x + kk))

/-- LD Vx, Vy (42_alu.md R134). -/
def execLdVxVy (x y : Reg) (s : State) : Host.Outcome State Fault Refusal := .next (setV s x (getV s y))

/-- OR Vx, Vy: VF not reset (42_alu.md R135). -/
def execOrVxVy (x y : Reg) (s : State) : Host.Outcome State Fault Refusal :=
  .next (setV s x (getV s x ||| getV s y))

/-- AND Vx, Vy: VF not reset (42_alu.md R136). -/
def execAndVxVy (x y : Reg) (s : State) : Host.Outcome State Fault Refusal :=
  .next (setV s x (getV s x &&& getV s y))

/-- XOR Vx, Vy: VF not reset (42_alu.md R137). -/
def execXorVxVy (x y : Reg) (s : State) : Host.Outcome State Fault Refusal :=
  .next (setV s x (getV s x ^^^ getV s y))

/-- ADD Vx, Vy: VF = carry (42_alu.md R138). -/
def execAddVxVy (x y : Reg) (s : State) : Host.Outcome State Fault Refusal :=
  .next (setVFlag s x (getV s x + getV s y) (carryFlag (getV s x) (getV s y)))

/-- SUB Vx, Vy: VF = not borrow, strict (42_alu.md R139). -/
def execSubVxVy (x y : Reg) (s : State) : Host.Outcome State Fault Refusal :=
  .next (setVFlag s x (getV s x - getV s y) (notBorrowFlag (getV s x) (getV s y)))

/-- SUBN Vx, Vy: V[y] - V[x] (42_alu.md R141). -/
def execSubnVxVy (x y : Reg) (s : State) : Host.Outcome State Fault Refusal :=
  .next (setVFlag s x (getV s y - getV s x) (notBorrowFlag (getV s y) (getV s x)))

/-- The shift right that SHR Vx, Vy and its alias share (42_alu.md R140). -/
def shiftRight (x y : Reg) (s : State) : State :=
  setVFlag s x (shiftOperand s x y >>> 1) (droppedLowFlag (shiftOperand s x y))

/-- The shift left that SHL Vx, Vy and its alias share (42_alu.md R142). -/
def shiftLeft (x y : Reg) (s : State) : State :=
  setVFlag s x (shiftOperand s x y <<< 1) (droppedHighFlag (shiftOperand s x y))

/-- SHR Vx, Vy (42_alu.md R140). -/
def execShrVxVy (x y : Reg) (s : State) : Host.Outcome State Fault Refusal := .next (shiftRight x y s)

/-- SHL Vx, Vy (42_alu.md R142). -/
def execShlVxVy (x y : Reg) (s : State) : Host.Outcome State Fault Refusal := .next (shiftLeft x y s)

/-- SHR Vx: the alias is SHR Vx, V0 (30_encoding.md R91). -/
def execShrVx (x : Reg) (s : State) : Host.Outcome State Fault Refusal := .next (shiftRight x 0 s)

/-- SHL Vx: the alias is SHL Vx, V0 (30_encoding.md R91). -/
def execShlVx (x : Reg) (s : State) : Host.Outcome State Fault Refusal := .next (shiftLeft x 0 s)

/-- RND Vx, kk: one free byte, masked (42_alu.md R143). -/
def execRnd (x : Reg) (kk : Byte) (s : State) : Host.Outcome State Fault Refusal :=
  .next { setV s x (randAnswer s.env &&& kk) with env := afterRand s.env }

end Sys2Proof.Machine
end

