-- ==== Sys2Proof/Machine/Flow.lean ====
section
/-! DEFINITION. Family 0 and control flow (41_flow.md). PC already holds the address after the instruction
(30_encoding.md R94). -/

namespace Sys2Proof.Machine

/-- SYS nnn: no state change beyond decode (41_flow.md R103). -/
def execSys (_nnn : Addr) (s : State) : Host.Outcome State Fault Refusal := .next s

/-- CLS: zero the framebuffer, set the redraw flag (41_flow.md R101). -/
def execCls (s : State) : Host.Outcome State Fault Refusal := .next (clearScreen s)

/-- RET (41_flow.md R102). -/
def execRet (s : State) : Host.Outcome State Fault Refusal := .next (returnFrom s)

/-- JP nnn (41_flow.md R104). -/
def execJp (nnn : Addr) (s : State) : Host.Outcome State Fault Refusal := .next (setPc s (addrOperand nnn))

/-- CALL nnn (41_flow.md R105). -/
def execCall (nnn : Addr) (s : State) : Host.Outcome State Fault Refusal := .next (callTo (addrOperand nnn) s)

/-- SE Vx, kk (41_flow.md R106). -/
def execSeVxKk (x : Reg) (kk : Byte) (s : State) : Host.Outcome State Fault Refusal :=
  .next (skipIf (getV s x == kk) s)

/-- SNE Vx, kk (41_flow.md R107). -/
def execSneVxKk (x : Reg) (kk : Byte) (s : State) : Host.Outcome State Fault Refusal :=
  .next (skipIf (getV s x != kk) s)

/-- SE Vx, Vy (41_flow.md R108). -/
def execSeVxVy (x y : Reg) (s : State) : Host.Outcome State Fault Refusal :=
  .next (skipIf (getV s x == getV s y) s)

/-- SNE Vx, Vy (41_flow.md R109). -/
def execSneVxVy (x y : Reg) (s : State) : Host.Outcome State Fault Refusal :=
  .next (skipIf (getV s x != getV s y) s)

/-- JP V0, nnn (41_flow.md R110). -/
def execJpV0 (nnn : Addr) (s : State) : Host.Outcome State Fault Refusal := .next (setPc s (jumpV0Target s nnn))

end Sys2Proof.Machine
end

