-- ==== Sys2Proof/Machine/Keys.lean ====
section
/-! DEFINITION. The key skips (44_keys.md): one poll each, then a comparison with Vx. -/

namespace Sys2Proof.Machine

/-- SKP Vx (44_keys.md R181). -/
def execSkp (x : Reg) (s : State) : Host.Outcome State Fault Refusal :=
  .next { skipIf (keyMatches (keyAnswer s.env) (getV s x)) s with env := afterKey s.env }

/-- SKNP Vx (44_keys.md R182). -/
def execSknp (x : Reg) (s : State) : Host.Outcome State Fault Refusal :=
  .next { skipIf (!keyMatches (keyAnswer s.env) (getV s x)) s with env := afterKey s.env }

end Sys2Proof.Machine
end

