-- ==== Sys2Proof/Machine/Sprite.lean ====
section
/-! DEFINITION. The index load and the sprite draw (43_index_sprite.md). -/

namespace Sys2Proof.Machine

/-- LD I, nnn (43_index_sprite.md R160). -/
def execLdINnn (nnn : Addr) (s : State) : Host.Outcome State Fault Refusal := .next (setI s (addrOperand nnn))

/-- A draw in progress: the memory, and whether a lit pixel has been cleared. -/
structure Blit where
  mem : Memory
  hit : Bool
  deriving DecidableEq, Repr

/-- One column of one sprite row (43_index_sprite.md R161): column `c` is bit `7 - c` of the row's byte; the pixel's
coordinates wrap modulo 64 and 32. -/
def drawPixel (cx cy r : Nat) (row : Byte) (b : Blit) (c : Nat) : Blit :=
  if row.getLsbD (7 - c) then
    let px := (cx + c) % Config.fbW
    let py := (cy + r) % Config.fbH
    { mem := togglePixel b.mem px py, hit := b.hit || pixel b.mem px py }
  else b

/-- The eight columns of one sprite row, left to right. -/
def drawRow (cx cy r : Nat) (row : Byte) (b : Blit) : Blit :=
  (List.range 8).foldl (drawPixel cx cy r row) b

/-- The rows of a sprite, each row's byte read just before it is drawn (43_index_sprite.md R161). -/
def drawSprite (cx cy base n : Nat) (m : Memory) : Blit :=
  (List.range n).foldl (fun b r => drawRow cx cy r (memRead b.mem (base + r)) b) { mem := m, hit := false }

/-- What DRW Vx, Vy, n draws: coordinates and I are read before any write. -/
def drawOf (x y : Reg) (n : Fin 16) (s : State) : Blit :=
  drawSprite (getV s x).toNat (getV s y).toNat (indexAddr s) n.val s.mem

/-- DRW Vx, Vy, n: the framebuffer, then VF, then the redraw flag (43_index_sprite.md R161). -/
def execDrw (x y : Reg) (n : Fin 16) (s : State) : Host.Outcome State Fault Refusal :=
  .next { setV { s with mem := (drawOf x y n s).mem } vf (collisionFlag (drawOf x y n s).hit) with redraw := true }

end Sys2Proof.Machine
end

