-- ==== Sys2Proof/Machine/TimerMemory.lean ====
section
/-! DEFINITION. The F family (45_timer_memory.md): timers, index arithmetic, glyphs, decimal digits, bulk copies and the
wait for a key. -/

namespace Sys2Proof.Machine

/-- LD Vx, DT (45_timer_memory.md R190). -/
def execLdVxDt (x : Reg) (s : State) : Host.Outcome State Fault Refusal := .next (setV s x s.dt)

/-- LD DT, Vx (45_timer_memory.md R191); the period in progress is not restarted (60_exceptions.md R232). -/
def execLdDtVx (x : Reg) (s : State) : Host.Outcome State Fault Refusal := .next { s with dt := getV s x }

/-- LD ST, Vx (45_timer_memory.md R192). -/
def execLdStVx (x : Reg) (s : State) : Host.Outcome State Fault Refusal := .next { s with st := getV s x }

/-- ADD I, Vx: modulo 65536, VF not written (45_timer_memory.md R193). -/
def execAddIVx (x : Reg) (s : State) : Host.Outcome State Fault Refusal :=
  .next (setI s (s.i + (getV s x).setWidth 16))

/-- LD F, Vx (45_timer_memory.md R194). -/
def execLdFVx (x : Reg) (s : State) : Host.Outcome State Fault Refusal := .next (setI s (glyphOperand s x))

/-- LD B, Vx: hundreds at I, tens at I + 1, ones at I + 2 (45_timer_memory.md R195). -/
def execLdBVx (x : Reg) (s : State) : Host.Outcome State Fault Refusal :=
  .next (storeBytes s (indexAddr s) (bcdDigits (getV s x)))

/-- LD [I], Vx: V0..Vx stored from I on, I unchanged (45_timer_memory.md R196). -/
def execLdMemVx (x : Reg) (s : State) : Host.Outcome State Fault Refusal :=
  .next (storeBytes s (indexAddr s) (regsUpTo s x))

/-- LD Vx, [I]: V0..Vx loaded from I on, I unchanged (45_timer_memory.md R197). -/
def execLdVxMem (x : Reg) (s : State) : Host.Outcome State Fault Refusal :=
  .next (loadRegs s (indexAddr s) (x.val + 1))

/-- LD Vx, K: the first poll is part of this step, each further poll is a step of its own (45_timer_memory.md R198;
assumption log 6). -/
def execLdVxK (x : Reg) (s : State) : Host.Outcome State Fault Refusal := .next (pollKey x s)

end Sys2Proof.Machine
end

