-- ==== Sys2Proof/Machine/Marks.lean ====
section
/-! DEFINITION. `RESET_REGS = unwritten` (10_state.md R41): which of V0..VF and I an instruction reads and writes, the fault
of a read before the first write, and the first write. Under `RESET_REGS = zero` no register is ever marked. -/

namespace Sys2Proof.Machine

/-- The V registers an instruction reads, from the pseudocode of 41_flow.md to 45_timer_memory.md; a shift's source depends on
`SHIFT_SOURCE` (42_alu.md R140, R142). -/
def readsV (cfg : Config) : Instr → Reg → Bool
  | .seVxKk x _, r | .sneVxKk x _, r | .addVxKk x _, r => r == x
  | .seVxVy x y, r | .sneVxVy x y, r | .orVxVy x y, r | .andVxVy x y, r | .xorVxVy x y, r | .addVxVy x y, r
  | .subVxVy x y, r | .subnVxVy x y, r | .drw x y _, r => r == x || r == y
  | .ldVxVy _ y, r => r == y
  | .shrVxVy x y, r | .shlVxVy x y, r => r == (if cfg.shiftSource = .vx then x else y)
  | .shrVx x, r | .shlVx x, r => r == (if cfg.shiftSource = .vx then x else 0)
  | .jpV0 _, r => r == 0
  | .skp x, r | .sknp x, r | .ldDtVx x, r | .ldStVx x, r | .addIVx x, r | .ldFVx x, r | .ldBVx x, r => r == x
  | .ldMemVx x, r => decide (r ≤ x)
  | .sys _, _ | .cls, _ | .ret, _ | .jp _, _ | .call _, _ | .ldVxKk _ _, _ | .ldINnn _, _ | .rnd _ _, _
  | .ldVxDt _, _ | .ldVxK _, _ | .ldVxMem _, _ => false

/-- The readers of I: "DRW, ADD I, LD B, LD [I], LD Vx [I]" (10_state.md R33). -/
def readsI : Instr → Bool
  | .drw _ _ _ | .addIVx _ | .ldBVx _ | .ldMemVx _ | .ldVxMem _ => true
  | .sys _ | .cls | .ret | .jp _ | .call _ | .seVxKk _ _ | .sneVxKk _ _ | .seVxVy _ _ | .ldVxKk _ _
  | .addVxKk _ _ | .ldVxVy _ _ | .orVxVy _ _ | .andVxVy _ _ | .xorVxVy _ _ | .addVxVy _ _ | .subVxVy _ _
  | .shrVxVy _ _ | .subnVxVy _ _ | .shlVxVy _ _ | .sneVxVy _ _ | .ldINnn _ | .jpV0 _ | .rnd _ _ | .skp _
  | .sknp _ | .ldVxDt _ | .ldVxK _ | .ldDtVx _ | .ldStVx _ | .ldFVx _ | .shrVx _ | .shlVx _ => false

/-- The V registers an instruction writes: its destination, VF as a flag (10_state.md R21), V0..Vx of the bulk load. -/
def destV : Instr → Reg → Bool
  | .ldVxKk x _, r | .addVxKk x _, r | .ldVxVy x _, r | .orVxVy x _, r | .andVxVy x _, r | .xorVxVy x _, r
  | .rnd x _, r | .ldVxDt x, r | .ldVxK x, r => r == x
  | .addVxVy x _, r | .subVxVy x _, r | .shrVxVy x _, r | .subnVxVy x _, r | .shlVxVy x _, r | .shrVx x, r
  | .shlVx x, r => r == x || r == 15
  | .drw _ _ _, r => r == 15
  | .ldVxMem x, r => decide (r ≤ x)
  | .sys _, _ | .cls, _ | .ret, _ | .jp _, _ | .call _, _ | .seVxKk _ _, _ | .sneVxKk _ _, _ | .seVxVy _ _, _
  | .sneVxVy _ _, _ | .ldINnn _, _ | .jpV0 _, _ | .skp _, _ | .sknp _, _ | .ldDtVx _, _ | .ldStVx _, _
  | .addIVx _, _ | .ldFVx _, _ | .ldBVx _, _ | .ldMemVx _, _ => false

/-- The writers of I: "LD I, ADD I, LD F" (10_state.md R22, R33). -/
def writesI : Instr → Bool
  | .ldINnn _ | .addIVx _ | .ldFVx _ => true
  | .sys _ | .cls | .ret | .jp _ | .call _ | .seVxKk _ _ | .sneVxKk _ _ | .seVxVy _ _ | .ldVxKk _ _
  | .addVxKk _ _ | .ldVxVy _ _ | .orVxVy _ _ | .andVxVy _ _ | .xorVxVy _ _ | .addVxVy _ _ | .subVxVy _ _
  | .shrVxVy _ _ | .subnVxVy _ _ | .shlVxVy _ _ | .sneVxVy _ _ | .jpV0 _ | .rnd _ _ | .drw _ _ _ | .skp _
  | .sknp _ | .ldVxDt _ | .ldVxK _ | .ldDtVx _ | .ldStVx _ | .ldBVx _ | .ldMemVx _ | .ldVxMem _ | .shrVx _
  | .shlVx _ => false

/-- Under `RESET_REGS = unwritten`, and never under `zero`, the instruction reads a register that nothing has written
(10_state.md R41). -/
def readsUnwritten (i : Instr) (s : State) : Bool :=
  s.cfg.resetRegs == .unwritten &&
    ((List.finRange 16).any (fun r => readsV s.cfg i r && s.unwritten.v[r]) || (readsI i && s.unwritten.i))

/-- The marks once an instruction has completed: what it wrote is unwritten no longer. -/
def writtenMarks (i : Instr) (m : Unwritten) : Unwritten where
  v := Vector.ofFn (fun r : Reg => m.v[r] && !destV i r)
  i := m.i && !writesI i

/-- The marks after an instruction. A fault or a key wait has not completed it: nothing is written yet. -/
def markWritten (i : Instr) (s : State) : State :=
  match s.run with
  | .running => { s with unwritten := writtenMarks i s.unwritten }
  | .waitingKey _ | .faulted _ | .stopped => s

end Sys2Proof.Machine
end

