-- ==== Sys2Proof/Machine/Step.lean ====
section
/-! DEFINITION. One step of the block: one cycle (30_encoding.md R94), or one further poll of LD Vx, K
(70_reset_and_hazards.md R272; assumption log 6). -/

namespace Sys2Proof.Machine

/-- The instruction and what follows it in the cycle. Under `RESET_REGS = unwritten` an instruction that reads a register
before its first write stops: "reads before writes fault" (10_state.md R41; 92_eei_decisions.md D18; 93_implementation_defined.md
I14). Under the default `zero` no instruction stops here. -/
def executeAndFinish (i : Instr) (s : State) : Host.Outcome State Fault Refusal :=
  if readsUnwritten i s then .fault (.unwrittenRead s.fetchWord s.fetchAddr)
  else
    match exec i s with
    | .next t => .next (finishCycle (markWritten i t))
    | .fault f => .fault f
    | .refused r => .refused r

/-- `Decode` and what comes of it, for the word just fetched (30_encoding.md R94). An `Invalid` word raises
RuntimeDispatchError (60_exceptions.md R220). -/
def decodeAndExecute (s : State) : Host.Outcome State Fault Refusal :=
  match decode s.cfg s.fetchWord with
  | .ok i => executeAndFinish i s
  | .error .faithfulKeySkip => .refused (.faithfulKeySkip s.fetchWord)
  | .error .invalid => .next (raiseFault .runtimeDispatchError s)

/-- One step. No cycle runs from Faulted (60_exceptions.md R223) or Stopped (R238). -/
def step (s : State) : Host.Outcome State Fault Refusal :=
  match s.run with
  | .running => decodeAndExecute (beginCycle s)
  | .waitingKey x => .next (finishCycle (markWritten (.ldVxK x) (pollKey x (clearPorts s))))
  | .faulted r => .fault (.halted r)
  | .stopped => .fault .stopped

/-- The state with a table word stored at PC, big-endian, and the next cycle about to fetch. -/
def State.withFetchWord (s : State) (nbits w : Nat) : State :=
  { s with mem := memPlaceWord s.mem s.pc.toNat (tableWord nbits w), run := .running }

end Sys2Proof.Machine
end

