-- ==== Sys2Proof/Machine/HostControl.lean ====
section
/-! DEFINITION. The host's controls (00_scope.md R16): stop, reset, and reload with a ROM. They act between cycles, never
during the wait of LD Vx, K (60_exceptions.md R238), and stand beside step (assumption log 16). -/

namespace Sys2Proof.Machine

/-- Why a control is not taken. -/
inductive HostError
  /-- The block is inside an instruction (60_exceptions.md R238). -/
  | midInstruction
  /-- There is no run to stop or to load: it has faulted or is stopped. -/
  | noRun
  /-- LoadError: the ROM cannot be read (70_reset_and_hazards.md R261). -/
  | romUnreadable
  /-- LoadError: the ROM is longer than 3584 bytes (70_reset_and_hazards.md R262). -/
  | romTooLong
  deriving DecidableEq, Repr

/-- stop: `run <- Stopped` (60_exceptions.md R238). -/
def hostStop (s : State) : Except HostError State :=
  match s.run with
  | .running => .ok { s with run := .stopped }
  | .waitingKey _ => .error .midInstruction
  | .faulted _ => .error .noRun
  | .stopped => .error .noRun

/-- The reset state of the machine that `s` is a state of: its configuration, and the environment, which is not the
block's state, stay (70_reset_and_hazards.md R260, R265). -/
def resetOf (s : State) : State :=
  { State.reset with
    mem := resetMemory s.cfg
    cfg := s.cfg
    unwritten := resetMarks s.cfg.resetRegs
    env := s.env }

/-- reset: discards the whole state, a Faulted or Stopped run state included (70_reset_and_hazards.md R260, R265). -/
def hostReset (s : State) : Except HostError State :=
  match s.run with
  | .waitingKey _ => .error .midInstruction
  | .running | .faulted _ | .stopped => .ok (resetOf s)

/-- The longest ROM: `4096 - 0x200` bytes (70_reset_and_hazards.md R262). -/
def maxRom : Nat := Config.memSize - Config.progBase

/-- The ROM of a load: byte `j` at `0x200 + j`, or a LoadError; `none` is a file that cannot be read
(70_reset_and_hazards.md R261, R262). -/
def placeRom (rom : Option (List Byte)) (s : State) : Except HostError State :=
  match rom with
  | none => .error .romUnreadable
  | some bytes =>
    if bytes.length ≤ maxRom then .ok (storeBytes s Config.progBase bytes) else .error .romTooLong

/-- load_rom: accepted between cycles only (00_scope.md R16), in Running, which a reset leaves. "ROM load, after reset": with
the run Faulted or Stopped there is no reset block to load (70_reset_and_hazards.md R261; assumption log 16).
DESIGN CHOICE (assumption log 21): a run under way, with cycles executed since the reset, takes a load as well; only the
ROM's bytes change. R16 says "between cycles" and R261 "after reset", and the spec leaves this case open. -/
def loadRom (rom : Option (List Byte)) (s : State) : Except HostError State :=
  match s.run with
  | .running => placeRom rom s
  | .waitingKey _ => .error .midInstruction
  | .faulted _ => .error .noRun
  | .stopped => .error .noRun

/-- reload: reset, then load_rom (70_reset_and_hazards.md R265). After a LoadError there is no state to run. -/
def hostReload (rom : Option (List Byte)) (s : State) : Except HostError State :=
  match hostReset s with
  | .ok t => loadRom rom t
  | .error e => .error e

end Sys2Proof.Machine
end

