-- ==== Sys2Proof/Safety.lean ====
section
/-! DEFINITION. What a safe run is, and the words claims are stated in: the invariant of the block between steps, the
states a run can reach, and what an instruction changes and leaves unchanged. -/

namespace Sys2Proof.Machine

/-! ### The invariant between steps -/

/-- What holds of the block between any two steps. -/
structure BlockInv (s : State) : Prop where
  /-- Memory is in its canonical form (assumption log 1). -/
  memory : Memory.wf s.mem
  /-- "a 16-bit register whose value is always in [0, 4096)" (10_state.md R23). -/
  pcInRange : s.pc.toNat < Config.memSize
  /-- The stack never holds more than `STACK_DEPTH` entries (10_state.md R27). -/
  stackBounded : ∀ d, s.cfg.stackDepth = some d → s.stack.length ≤ d
  /-- The redraw point has cleared the flag (10_state.md R28, 60_exceptions.md R233). -/
  redrawClear : s.redraw = false
  /-- The last tick is not later than the clock (60_exceptions.md R227, R235). -/
  tickInPast : ∀ l, s.lastTickMs = some l → l ≤ s.env.nowMs
  /-- A fault's record names the word and the address it was fetched from; PC is two bytes on (60_exceptions.md R221). -/
  faultRecord : ∀ r, s.run = .faulted r →
    r.addr.toNat < Config.memSize ∧ r.opcode = memFetch s.mem r.addr.toNat ∧ s.pc = nextPc r.addr
  /-- The block waits for a key only inside a cycle of LD Vx, K, after the run start (60_exceptions.md R239). -/
  waiting : ∀ x, s.run = .waitingKey x →
    s.lastTickMs ≠ none ∧ s.fetchWord = memFetch s.mem s.fetchAddr.toNat ∧ s.pc = nextPc s.fetchAddr ∧
      decode s.cfg s.fetchWord = .ok (.ldVxK x)
  /-- Under `RESET_REGS = zero` no register is unwritten (10_state.md R41). -/
  marks : s.cfg.resetRegs = .zero → s.unwritten = resetMarks .zero

/-! ### Runs -/

/-- The states of runs: from reset, with any configuration and environment, by steps and by the host's controls between
them (00_scope.md R16, 60_exceptions.md R238; a load into a run under way is a DESIGN CHOICE, assumption log 21). -/
inductive Reachable : State → Prop
  | reset (s : State) : Reachable (resetOf s)
  | step {s t : State} : Reachable s → Machine.step s = .next t → Reachable t
  | stop {s t : State} : Reachable s → hostStop s = .ok t → Reachable t
  | hostReset {s t : State} : Reachable s → hostReset s = .ok t → Reachable t
  | load {s t : State} (rom : Option (List Byte)) : Reachable s → loadRom rom s = .ok t → Reachable t
  | reload {s t : State} (rom : Option (List Byte)) : Reachable s → hostReload rom s = .ok t → Reachable t

/-- The step answers a next state: the block goes on. -/
def GoesOn (s : State) : Prop := ∃ t, step s = .next t

/-! ### What an instruction changes

Each of these says that the two states are equal in every field but the one it names: registers, PC, timers, stack, redraw
flag, run state, configuration, ports, environment, and the whole memory, so every byte of it. -/

/-- Only V registers differ. -/
def OnlyV (s t : State) : Prop := t = { s with v := t.v }
/-- Only memory differs. -/
def OnlyMem (s t : State) : Prop := t = { s with mem := t.mem }
/-- Only PC differs. -/
def OnlyPc (s t : State) : Prop := t = { s with pc := t.pc }
/-- Only I differs. -/
def OnlyI (s t : State) : Prop := t = { s with i := t.i }

/-- `V[x]` becomes `b`, and nothing else changes. -/
def WritesV (s t : State) (x : Reg) (b : Byte) : Prop :=
  OnlyV s t ∧ ∀ r, getV t r = if r = x then b else getV s r

/-- `V[x]` becomes `b` and then VF becomes `f`, and nothing else changes (42_alu.md R131: VF keeps the flag where
`x` is 15). -/
def WritesVFlag (s t : State) (x : Reg) (b f : Byte) : Prop :=
  OnlyV s t ∧ ∀ r, getV t r = if r = 15 then f else if r = x then b else getV s r

/-- PC becomes `target`, and nothing else changes. -/
def Jumps (s t : State) (target : Nat) : Prop := OnlyPc s t ∧ t.pc.toNat = target

/-- PC moves two bytes on modulo 4096 exactly if `c`, and nothing else changes (41_flow.md R100). -/
def SkipsIf (s t : State) (c : Prop) : Prop :=
  OnlyPc s t ∧ (c → t.pc.toNat = (s.pc.toNat + 2) % 4096) ∧ (¬c → t.pc = s.pc)

/-- The bytes `bs` stand at `addr`, `addr + 1`, ... modulo 4096, and every other byte reads as before. -/
def StoresAt (s t : State) (addr : Nat) (bs : List Byte) : Prop :=
  (∀ k (h : k < bs.length), memRead t.mem (addr + k) = bs[k]) ∧
  ∀ a, (∀ k < bs.length, a % 4096 ≠ (addr + k) % 4096) → memRead t.mem a = memRead s.mem a

/-! ### Which instructions write what (10_state.md R33, 20_memory.md R58)

Each table answers true for the instructions the spec names as writers. The writers of V0..VF and I are `destV` and
`writesI` of Machine/Marks.lean. -/

/-- The writers of PC beside the cycle's advance: "JP, CALL, RET, JP V0, the skips" (10_state.md R33). -/
def writesPc : Instr → Bool
  | .jp _ | .call _ | .ret | .jpV0 _ | .seVxKk _ _ | .sneVxKk _ _ | .seVxVy _ _ | .sneVxVy _ _ | .skp _
  | .sknp _ => true
  | _ => false

/-- The writers of the stack: "CALL, RET" (10_state.md R33). -/
def writesStack : Instr → Bool
  | .call _ | .ret => true
  | _ => false

/-- The setters of the redraw flag: "CLS, DRW" (10_state.md R28, R33). -/
def setsRedraw : Instr → Bool
  | .cls | .drw _ _ _ => true
  | _ => false

/-- The instructions with a memory write: CLS, DRW, LD B, LD [I] (20_memory.md R58). -/
def writesMem : Instr → Bool
  | .cls | .drw _ _ _ | .ldBVx _ | .ldMemVx _ => true
  | _ => false

/-- The instruction that writes DT (10_state.md R25, R33). -/
def writesDt : Instr → Bool
  | .ldDtVx _ => true
  | _ => false

/-- The instruction that writes ST (10_state.md R26, R33). -/
def writesSt : Instr → Bool
  | .ldStVx _ => true
  | _ => false

/-- The instructions that draw a key or a random byte (00_scope.md R10, R12). -/
def drawsInput : Instr → Bool
  | .rnd _ _ | .skp _ | .sknp _ | .ldVxK _ => true
  | _ => false

/-- Under `RESET_REGS = unwritten` the instruction reads a V register or I that nothing has written (10_state.md R41). -/
def ReadsBeforeWrite (s : State) (i : Instr) : Prop :=
  s.cfg.resetRegs = .unwritten ∧
    ((∃ r : Reg, readsV s.cfg i r = true ∧ s.unwritten.v[r] = true) ∨ (readsI i = true ∧ s.unwritten.i = true))

/-- A word is one instruction under every configuration. -/
def Decodes (w : Word) (i : Instr) : Prop := ∀ cfg, decode cfg w = .ok i

/-- The canonical word of a word's instruction: the ignored nibbles are 0 (30_encoding.md R74, R78, R81). -/
def canonicalWord (w : Word) : Word :=
  if w.toNat / 4096 = 0 ∧ (w.toNat % 256 = 0xE0 ∨ w.toNat % 256 = 0xEE) then w &&& 0xF0FF#16
  else if w.toNat / 4096 = 5 ∨ w.toNat / 4096 = 9 then w &&& 0xFFF0#16
  else w

/-! ### Sprites (43_index_sprite.md R161) -/

/-- Row `r` of a sprite at `(cx, cy)`, whose byte is `row`, has a 1 bit on the pixel `(px, py)`. -/
def rowCovers (cx cy r : Nat) (row : Byte) (px py : Nat) : Bool :=
  py == (cy + r) % 32 && decide ((px + 64 - cx % 64) % 64 < 8) && row.getLsbD (7 - (px + 64 - cx % 64) % 64)

/-- A sprite of `n` rows at `(cx, cy)` with the row bytes `rows` has a 1 bit on the pixel `(px, py)`. -/
def spriteCovers (cx cy n : Nat) (rows : Nat → Byte) (px py : Nat) : Bool :=
  (List.range n).any (fun r => rowCovers cx cy r (rows r) px py)

end Sys2Proof.Machine
end

