-- ==== Sys2Proof/Certificates/Slice0/Obligations.lean ====
section
/-! DEFINITION. The statements for the provers, from the numbered rules of spec/. Each docstring names the rule it
formalises. A statement about an instruction's result says that exec answers a next state, what that state holds, and that
nothing else changes (`OnlyV`, `OnlyMem`, `OnlyPc`, `OnlyI`: equal in every other field, the whole memory included). The
clauses `Decodes w i` state the encoding of the same rule. -/

open Sys2Proof Sys2Proof.Machine

/-! ### Reset -/

/-- 10_state.md R40 and R44. -/
def Obligations.ResetPcTimersStackRedraw : Prop :=
  State.reset.pc = 0x200 ∧ State.reset.dt = 0 ∧ State.reset.st = 0 ∧ State.reset.stack = [] ∧
    State.reset.redraw = false

/-- 10_state.md R41: V0..VF and I are 0, none of them marked, under the spec's `RESET_REGS = zero`, and all of them marked
under `unwritten`; and R45: the run has not started (that it is Running is the model's, assumption log 5). -/
def Obligations.ResetRegistersZeroRunNotStarted : Prop :=
  (∀ r : Reg, getV State.reset r = 0 ∧ State.reset.unwritten.v[r] = false) ∧
  State.reset.i = 0 ∧ State.reset.unwritten.i = false ∧ State.reset.lastTickMs = none ∧ State.reset.run = .running ∧
  (∀ s, s.cfg.resetRegs = .zero → ∀ r : Reg, getV (resetOf s) r = 0 ∧ (resetOf s).unwritten.v[r] = false ∧
    (resetOf s).i = 0 ∧ (resetOf s).unwritten.i = false) ∧
  ∀ s, s.cfg.resetRegs = .unwritten → ∀ r : Reg, (resetOf s).unwritten.v[r] = true ∧ (resetOf s).unwritten.i = true

/-- The glyphs of 10_state.md R43, each as one 40-bit number, top row in the highest byte. -/
def Sys2Proof.Machine.fontWords : List (BitVec 40) :=
  [0xF0909090F0, 0x2060202070, 0xF010F080F0, 0xF010F010F0, 0x9090F01010, 0xF080F010F0, 0xF080F090F0, 0xF010204040]
  ++ [0xF090F090F0, 0xF090F010F0, 0xF090F09090, 0xE090E090E0, 0xF0808080F0, 0xE0909090E0, 0xF080F080F0, 0xF080F08080]

/-- 10_state.md R42 and R43: every byte after reset, with the spec's glyphs and with any other `GLYPH_BYTES`. -/
def Obligations.ResetMemoryGlyphsThenZero : Prop :=
  (∀ a < 4096, memRead State.reset.mem a =
    if a < 80 then (fontWords.getD (a / 5) 0).extractLsb' (8 * (4 - a % 5)) 8 else 0) ∧
  ∀ s, ∀ a < 4096, memRead (resetOf s).mem a = if h : a < 80 then s.cfg.glyphBytes[a] else 0

/-! ### Invariants -/

/-- The invariant holds at reset, whatever the configuration and the environment. -/
def Obligations.InvariantHoldsAtReset : Prop := BlockInv State.reset ∧ ∀ s, BlockInv (resetOf s)

/-- Every step keeps the invariant: canonical memory, 12-bit PC (10_state.md R23), bounded stack (R27), a clear redraw flag
(R28, 60_exceptions.md R233), a tick in the past, a true fault record (60_exceptions.md R221), a true key wait (R239), no register unwritten under
`RESET_REGS = zero` (10_state.md R41). -/
def Obligations.StepKeepsInvariant : Prop := ∀ s t, BlockInv s → step s = .next t → BlockInv t

/-- The host's controls keep the invariant (00_scope.md R16, 60_exceptions.md R238, 70_reset_and_hazards.md R260 to R262,
R265). -/
def Obligations.HostControlsKeepInvariant : Prop :=
  ∀ s t rom, BlockInv s →
    (hostStop s = .ok t ∨ hostReset s = .ok t ∨ loadRom rom s = .ok t ∨ hostReload rom s = .ok t) → BlockInv t

/-- The invariant holds in every state of every run. -/
def Obligations.ReachableStatesMeetInvariant : Prop := ∀ s, Reachable s → BlockInv s

/-- The configuration is fixed for the machine: no step and no control changes it (00_scope.md R4). -/
def Obligations.ConfigurationNeverChanges : Prop :=
  (∀ s t, step s = .next t → t.cfg = s.cfg) ∧
  ∀ s t rom, (hostStop s = .ok t ∨ hostReset s = .ok t ∨ loadRom rom s = .ok t ∨ hostReload rom s = .ok t) →
    t.cfg = s.cfg

/-- Equal memories are equal data: the canonical form leaves one list per memory (assumption log 1). -/
def Obligations.CanonicalMemoryIsUnique : Prop :=
  ∀ m n : Memory, m.wf → n.wf → (∀ a < 4096, memRead m a = memRead n a) → m = n

/-! ### Encoding -/

/-- Decoding an encoded instruction gives it back, every operand at every value (30_encoding.md R70 to R78, R82). -/
def Obligations.DecodeOfEncode : Prop :=
  ∀ cfg i, i.wf = true → cfg.admits i = true → decode cfg (encode i) = .ok i

/-- A word that decodes gives a well-formed instruction whose encoding is the word, ignored nibbles 0
(30_encoding.md R74, R78). -/
def Obligations.EncodeOfDecode : Prop :=
  ∀ cfg w i, decode cfg w = .ok i → i.wf = true ∧ cfg.admits i = true ∧ encode i = canonicalWord w

/-- The invalid words, all and only these (30_encoding.md R79). -/
def Obligations.InvalidWordsAllAndOnly : Prop :=
  ∀ w : Word, decode specConfig w = .error .invalid ↔
    (w.toNat / 4096 = 0x8 ∧ w.toNat % 16 ∈ [0x8, 0x9, 0xA, 0xB, 0xC, 0xD, 0xF]) ∨
    (w.toNat / 4096 = 0xE ∧ w.toNat % 256 ∉ [0x9E, 0xA1]) ∨
    (w.toNat / 4096 = 0xF ∧ w.toNat % 256 ∉ [0x07, 0x0A, 0x15, 0x18, 0x1E, 0x29, 0x33, 0x55, 0x65])

/-- Words written out in 95_test_vectors.md section 2.1 decode as it says. -/
def Obligations.WrittenWordsDecode : Prop :=
  decode specConfig 0x0000 = .ok (.sys 0x000) ∧ decode specConfig 0x01E0 = .ok .cls ∧
  decode specConfig 0x00EE = .ok .ret ∧ decode specConfig 0x1ABC = .ok (.jp 0xABC) ∧
  decode specConfig 0x3A42 = .ok (.seVxKk 0xA 0x42) ∧ decode specConfig 0x5AB7 = .ok (.seVxVy 0xA 0xB) ∧
  decode specConfig 0x8AB5 = .ok (.subVxVy 0xA 0xB) ∧ decode specConfig 0x8A06 = .ok (.shrVx 0xA) ∧
  decode specConfig 0x8ABE = .ok (.shlVxVy 0xA 0xB) ∧ decode specConfig 0xDAB5 = .ok (.drw 0xA 0xB 0x5) ∧
  decode specConfig 0xEAA1 = .ok (.sknp 0xA) ∧ decode specConfig 0xFA55 = .ok (.ldMemVx 0xA) ∧
  decode specConfig 0x8AB8 = .error .invalid ∧ decode specConfig 0xEAA0 = .error .invalid ∧
  decode specConfig 0xFA08 = .error .invalid

/-! ### Fetch -/

/-- 20_memory.md R56: upper byte first, the second byte at `(a + 1) mod 4096`. -/
def Obligations.FetchBigEndianWrapping : Prop :=
  ∀ m a, memFetch m a = memRead m (a % 4096) ++ memRead m ((a + 1) % 4096)

/-- 20_memory.md R62 and R268: the bytes LD [I], Vx stores are the word the next fetch at I reads. -/
def Obligations.StoreIsSeenByNextFetch : Prop :=
  ∀ (x : Reg) (s : State), 1 ≤ x →
    ∃ t, exec (.ldMemVx x) s = .next t ∧ memFetch t.mem (indexAddr s) = getV s 0 ++ getV s 1

/-! ### The cycle -/

/-- 30_encoding.md R94: a step first advances PC two bytes modulo 4096 and latches the word at the old PC and its address,
everything else but the ports and the run start's clock reading unchanged; with bytes at PC that decode to `i`, which reads no
unwritten register (10_state.md R41), it is then `i`, the first writes of `i` taken off the marks, and the end of the
cycle. After a fault, and in a key wait, the end of the cycle does nothing: no trace, redraw or timer step runs (30_encoding.md
R96, 60_exceptions.md R222, R229, R239). -/
def Obligations.StepRunsDecodedInstruction : Prop :=
  (∀ s, let u := beginCycle s
    u.pc.toNat = (s.pc.toNat + 2) % 4096 ∧ u.fetchAddr = s.pc ∧ u.fetchWord = memFetch s.mem s.pc.toNat ∧
    u = { s with pc := u.pc, fetchAddr := u.fetchAddr, fetchWord := u.fetchWord, renderOut := none, traceOut := none,
                 faultOut := none, lastTickMs := u.lastTickMs, env := u.env }) ∧
  (∀ s i t, s.run = .running → decode s.cfg (memFetch s.mem s.pc.toNat) = .ok i → ¬ReadsBeforeWrite s i →
    exec i (beginCycle s) = .next t → step s = .next (finishCycle (markWritten i t))) ∧
  (∀ t, t.run ≠ .running → finishCycle t = t) ∧
  ∀ i t, let u := markWritten i t
    u = { t with unwritten := u.unwritten } ∧
    (t.run ≠ .running → u = t) ∧
    (t.run = .running → (∀ r : Reg, u.unwritten.v[r] = (t.unwritten.v[r] && !destV i r)) ∧
      u.unwritten.i = (t.unwritten.i && !writesI i))

/-- 70_reset_and_hazards.md R263: the run start takes the clock, and a run that has started keeps its last tick. -/
def Obligations.RunStartTakesTheClock : Prop :=
  ∀ s, (s.lastTickMs = none →
      (beginCycle s).lastTickMs = some (clockAnswer s.env) ∧ (beginCycle s).env = afterClock s.env) ∧
    ∀ l, s.lastTickMs = some l → (beginCycle s).lastTickMs = some l ∧ (beginCycle s).env = s.env

/-- 60_exceptions.md R233: a completed cycle presents the 256 framebuffer bytes exactly if the redraw flag is set, and
leaves the flag clear; it changes no register but the timers, and no byte. -/
def Obligations.CycleEndRendersAndClearsRedraw : Prop :=
  ∀ s, s.run = .running → let u := finishCycle s
    u.redraw = false ∧
    (s.redraw = true → u.renderOut = some ((List.range 256).map (fun k => memRead s.mem (0xF00 + k)))) ∧
    (s.redraw = false → u.renderOut = s.renderOut) ∧
    u = { s with dt := u.dt, st := u.st, lastTickMs := u.lastTickMs, redraw := u.redraw, renderOut := u.renderOut,
                 traceOut := u.traceOut, env := u.env }

/-- 60_exceptions.md R237: with tracing enabled a completed cycle presents one record: the fetch address, the word, the
codec's reading of it, and the registers after the instruction (DT before the timer check); with tracing off, none. -/
def Obligations.CycleEndTraces : Prop :=
  ∀ s, s.run = .running →
    (s.cfg.tracing = true → (finishCycle s).traceOut =
      some { pc := s.fetchAddr, opcode := s.fetchWord, mnemonic := codecDecode s.fetchWord,
             snapshot := { v := s.v, i := s.i, pc := s.pc, dt := s.dt, st := s.st, unwritten := s.unwritten } }) ∧
    (s.cfg.tracing = false → (finishCycle s).traceOut = s.traceOut)

/-- 60_exceptions.md R227 and R228: the timer check of a completed cycle, at any positive frequency. -/
def Obligations.TimerCheckTicksAfterPeriod : Prop :=
  ∀ (s : State) (l : Int), s.cfg.wf = true → s.run = .running → s.lastTickMs = some l →
    let now := clockAnswer s.env
    let periodMs : Rat := 1000 / s.cfg.timerHz
    let u := finishCycle s
    (((now - l : Int) : Rat) ≥ periodMs →
      u.dt.toNat = s.dt.toNat - 1 ∧ u.st.toNat = s.st.toNat - 1 ∧ u.lastTickMs = some now) ∧
    (((now - l : Int) : Rat) < periodMs → u.dt = s.dt ∧ u.st = s.st ∧ u.lastTickMs = some l)

/-- 60_exceptions.md R228 and R229: in one step the two timers lose the same 0 or 1, each floored at 0, unless the step's
instruction writes a timer. -/
def Obligations.TimersLoseAtMostOnePerStep : Prop :=
  ∀ s t, step s = .next t →
    (∀ i, s.run = .running → decode s.cfg (memFetch s.mem s.pc.toNat) = .ok i →
      writesDt i = false ∧ writesSt i = false) →
    (t.dt = s.dt ∧ t.st = s.st) ∨ (t.dt.toNat = s.dt.toNat - 1 ∧ t.st.toNat = s.st.toNat - 1)

/-- 60_exceptions.md R235: the clock is monotonic over every step. -/
def Obligations.ClockNeverGoesBack : Prop := ∀ s t, step s = .next t → s.env.nowMs ≤ t.env.nowMs

/-- 60_exceptions.md R239: only a poll that answers a key ends the wait of LD Vx, K, and every piece of state, the timers
included, survives the wait unchanged; 45_timer_memory.md R198: the key is written to Vx and the cycle completes. -/
def Obligations.WaitEndsOnlyWithAKey : Prop :=
  ∀ s x, s.run = .waitingKey x →
    (keyAnswer s.env = none →
      step s = .next { s with renderOut := none, traceOut := none, faultOut := none, env := afterKey s.env }) ∧
    ∀ k, keyAnswer s.env = some k →
      ∃ t, step s = .next (finishCycle t) ∧ t.run = .running ∧
        (∀ r, getV t r = if r = x then BitVec.ofNat 8 k.val else getV s r) ∧
        (∀ r : Reg, t.unwritten.v[r] = (s.unwritten.v[r] && r != x)) ∧ t.unwritten.i = s.unwritten.i ∧
        t = { s with v := t.v, unwritten := t.unwritten, run := t.run, renderOut := none, traceOut := none,
                     faultOut := none, env := afterKey s.env }

/-! ### Faults and stops -/

/-- 60_exceptions.md R222: every instruction answers a next state; one that takes a fault is CALL with the stack full or RET
with it empty, and it has changed nothing but the run state and the fault port; otherwise the block is Running, or waits in
LD Vx, K (10_state.md R30). -/
def Obligations.FaultsArePreciseAndOnlyFromCallRet : Prop :=
  ∀ i s, s.run = .running → ∃ t, exec i s = .next t ∧
    (t.run = .running ∨ (∃ x, i = .ldVxK x ∧ t.run = .waitingKey x) ∨
     ∃ r, t = { s with run := .faulted r, faultOut := some r } ∧ r.opcode = s.fetchWord ∧ r.addr = s.fetchAddr ∧
      ((∃ nnn, i = .call nnn ∧ r.kind = .stackOverflow ∧ s.cfg.stackDepth = some s.stack.length) ∨
       (i = .ret ∧ r.kind = .stackUnderflow ∧ s.stack = [])))

/-- The block stops only where the spec says so: a step answers a fault exactly from Faulted or Stopped (60_exceptions.md
R223, R238) and, under `RESET_REGS = unwritten` only, at the read of an unwritten register (10_state.md R41), a refusal exactly for a family-E
word under `KEY_DISPATCH = faithful` (30_encoding.md R76), and a next state everywhere else. -/
def Obligations.StopsOnlyWhereTheSpecSays : Prop :=
  ∀ s, let early := ∃ i, decode s.cfg (memFetch s.mem s.pc.toNat) = .ok i ∧ ReadsBeforeWrite s i
    (∀ f, step s = .fault f ↔ (∃ r, s.run = .faulted r ∧ f = .halted r) ∨ (s.run = .stopped ∧ f = .stopped) ∨
      (s.run = .running ∧ early ∧ f = .unwrittenRead (memFetch s.mem s.pc.toNat) s.pc)) ∧
    (∀ r, step s = .refused r ↔
      s.run = .running ∧ s.cfg.keyDispatch = .faithful ∧ (memFetch s.mem s.pc.toNat).toNat / 4096 = 0xE ∧
        r = .faithfulKeySkip (memFetch s.mem s.pc.toNat)) ∧
    (GoesOn s ↔ (s.run = .running ∧
      ¬(s.cfg.keyDispatch = .faithful ∧ (memFetch s.mem s.pc.toNat).toNat / 4096 = 0xE) ∧ ¬early) ∨
      ∃ x, s.run = .waitingKey x) ∧
    (s.cfg.resetRegs = .zero → ¬early)

/-- 60_exceptions.md R220, R221, R229 and 30_encoding.md R96: an invalid word's fault. PC keeps the advanced value, the record
names the word and its address, and no trace, redraw or timer step runs: beside the run state and the fault port, the state is
the one the cycle's fetch and advance left, and in a started run the tick and the environment are as before. -/
def Obligations.InvalidWordTakesDispatchFault : Prop :=
  ∀ s, s.run = .running → decode s.cfg (memFetch s.mem s.pc.toNat) = .error .invalid →
    ∃ t, step s = .next t ∧ t.pc.toNat = (s.pc.toNat + 2) % 4096 ∧
      t.run = .faulted ⟨.runtimeDispatchError, memFetch s.mem s.pc.toNat, s.pc⟩ ∧
      t.faultOut = some ⟨.runtimeDispatchError, memFetch s.mem s.pc.toNat, s.pc⟩ ∧
      t = { beginCycle s with run := t.run, faultOut := t.faultOut } ∧
      (∀ l, s.lastTickMs = some l → t.lastTickMs = some l ∧ t.env = s.env) ∧
      t.renderOut = none ∧ t.traceOut = none ∧ t.cfg = s.cfg ∧ t.unwritten = s.unwritten ∧
      t.v = s.v ∧ t.i = s.i ∧ t.dt = s.dt ∧ t.st = s.st ∧ t.stack = s.stack ∧ t.redraw = s.redraw ∧ t.mem = s.mem

/-! ### Family 0 and control flow -/

/-- 41_flow.md R103. -/
def Obligations.SysDoesNothing : Prop :=
  ∀ nnn s, exec (.sys nnn) s = .next s ∧
    (nnn.toNat % 256 ≠ 0xE0 → nnn.toNat % 256 ≠ 0xEE → decode specConfig (formatA 0x0 nnn) = .ok (.sys nnn))

/-- 41_flow.md R101. -/
def Obligations.ClsZeroesFramebuffer : Prop :=
  (∀ z, Decodes (formatXK 0x0 z 0xE0) .cls) ∧
  ∀ s, ∃ t, exec .cls s = .next t ∧ t = { s with mem := t.mem, redraw := true } ∧
    ∀ a, memRead t.mem a = if 0xF00 ≤ a % 4096 then 0 else memRead s.mem a

/-- 41_flow.md R102: the last entry is popped into PC; with the stack empty the StackUnderflow fault. -/
def Obligations.RetPopsOrUnderflows : Prop :=
  (∀ z, Decodes (formatXK 0x0 z 0xEE) .ret) ∧
  (∀ s l a, s.stack = l ++ [a] → ∃ t, exec .ret s = .next t ∧ t = { s with stack := l, pc := t.pc } ∧
    t.pc.toNat = a.toNat) ∧
  ∀ s, s.stack = [] → exec .ret s =
    .next { s with run := .faulted ⟨.stackUnderflow, s.fetchWord, s.fetchAddr⟩,
                   faultOut := some ⟨.stackUnderflow, s.fetchWord, s.fetchAddr⟩ }

/-- 41_flow.md R105: the PC after the CALL is pushed, then the jump; with the stack full the StackOverflow fault. -/
def Obligations.CallPushesOrOverflows : Prop :=
  (∀ nnn, Decodes (formatA 0x2 nnn) (.call nnn)) ∧
  (∀ nnn s, s.cfg.stackDepth ≠ some s.stack.length → s.pc.toNat < 4096 →
    ∃ t a, exec (.call nnn) s = .next t ∧ t = { s with stack := s.stack ++ [a], pc := t.pc } ∧
      a.toNat = s.pc.toNat ∧ t.pc.toNat = nnn.toNat) ∧
  ∀ nnn s, s.cfg.stackDepth = some s.stack.length → exec (.call nnn) s =
    .next { s with run := .faulted ⟨.stackOverflow, s.fetchWord, s.fetchAddr⟩,
                   faultOut := some ⟨.stackOverflow, s.fetchWord, s.fetchAddr⟩ }

/-- 41_flow.md R102 and R105: RET after CALL comes back to the instruction after the CALL, with the stack as before. -/
def Obligations.RetUndoesCall : Prop :=
  ∀ nnn s, s.cfg.stackDepth ≠ some s.stack.length → s.pc.toNat < 4096 →
    ∃ t, exec (.call nnn) s = .next t ∧ exec .ret t = .next s

/-- 41_flow.md R104 and R110. -/
def Obligations.JumpsSetPc : Prop :=
  (∀ nnn, Decodes (formatA 0x1 nnn) (.jp nnn) ∧ Decodes (formatA 0xB nnn) (.jpV0 nnn)) ∧
  ∀ nnn s, (∃ t, exec (.jp nnn) s = .next t ∧ Jumps s t nnn.toNat) ∧
    ∃ t, exec (.jpV0 nnn) s = .next t ∧ Jumps s t ((nnn.toNat + (getV s 0).toNat) % 4096)

/-- 41_flow.md R106 to R109, with Skip of R100; the low nibble of the register forms is ignored. -/
def Obligations.SkipsOnComparison : Prop :=
  (∀ x kk, Decodes (formatXK 0x3 x kk) (.seVxKk x kk) ∧ Decodes (formatXK 0x4 x kk) (.sneVxKk x kk)) ∧
  (∀ x y n, Decodes (formatXYN 0x5 x y n) (.seVxVy x y) ∧ Decodes (formatXYN 0x9 x y n) (.sneVxVy x y)) ∧
  (∀ x kk s, (∃ t, exec (.seVxKk x kk) s = .next t ∧ SkipsIf s t (getV s x = kk)) ∧
    ∃ t, exec (.sneVxKk x kk) s = .next t ∧ SkipsIf s t (getV s x ≠ kk)) ∧
  ∀ x y s, (∃ t, exec (.seVxVy x y) s = .next t ∧ SkipsIf s t (getV s x = getV s y)) ∧
    ∃ t, exec (.sneVxVy x y) s = .next t ∧ SkipsIf s t (getV s x ≠ getV s y)

/-! ### Loads, ALU and RND -/

/-- 42_alu.md R132, R133 and R134: no flag is written. -/
def Obligations.ImmediateLoadsAndMove : Prop :=
  (∀ x kk, Decodes (formatXK 0x6 x kk) (.ldVxKk x kk) ∧ Decodes (formatXK 0x7 x kk) (.addVxKk x kk)) ∧
  (∀ x y, Decodes (formatXYN 0x8 x y 0x0) (.ldVxVy x y)) ∧
  (∀ x kk s, ∃ t, exec (.ldVxKk x kk) s = .next t ∧ WritesV s t x kk) ∧
  (∀ x kk s, ∃ t b, exec (.addVxKk x kk) s = .next t ∧ WritesV s t x b ∧
    b.toNat = ((getV s x).toNat + kk.toNat) % 256) ∧
  ∀ x y s, ∃ t, exec (.ldVxVy x y) s = .next t ∧ WritesV s t x (getV s y)

/-- 42_alu.md R135, R136 and R137: VF is not reset. -/
def Obligations.LogicOperations : Prop :=
  (∀ x y, Decodes (formatXYN 0x8 x y 0x1) (.orVxVy x y) ∧ Decodes (formatXYN 0x8 x y 0x2) (.andVxVy x y) ∧
    Decodes (formatXYN 0x8 x y 0x3) (.xorVxVy x y)) ∧
  ∀ x y s, (∃ t, exec (.orVxVy x y) s = .next t ∧ WritesV s t x (getV s x ||| getV s y)) ∧
    (∃ t, exec (.andVxVy x y) s = .next t ∧ WritesV s t x (getV s x &&& getV s y)) ∧
    ∃ t, exec (.xorVxVy x y) s = .next t ∧ WritesV s t x (getV s x ^^^ getV s y)

/-- 42_alu.md R138: the exact sum modulo 256, VF = 1 exactly if it exceeds 255; R131: VF last. -/
def Obligations.AddSetsCarry : Prop :=
  ∀ x y, Decodes (formatXYN 0x8 x y 0x4) (.addVxVy x y) ∧
  ∀ s, let sum := (getV s x).toNat + (getV s y).toNat
    ∃ t b, exec (.addVxVy x y) s = .next t ∧ WritesVFlag s t x b (if sum > 255 then 1 else 0) ∧
      b.toNat = sum % 256

/-- 42_alu.md R139 and R141: the difference modulo 256, VF = 1 exactly if the minuend is strictly greater. -/
def Obligations.SubtractionsSetNotBorrow : Prop :=
  ∀ x y, Decodes (formatXYN 0x8 x y 0x5) (.subVxVy x y) ∧ Decodes (formatXYN 0x8 x y 0x7) (.subnVxVy x y) ∧
  ∀ s, let vx := (getV s x).toNat
    let vy := (getV s y).toNat
    (∃ t b, exec (.subVxVy x y) s = .next t ∧ WritesVFlag s t x b (if vx > vy then 1 else 0) ∧
      (b.toNat : Int) = ((vx : Int) - vy) % 256) ∧
    ∃ t b, exec (.subnVxVy x y) s = .next t ∧ WritesVFlag s t x b (if vy > vx then 1 else 0) ∧
      (b.toNat : Int) = ((vy : Int) - vx) % 256

/-- 42_alu.md R140 and R142: the shift of Vx, or of Vy under `SHIFT_SOURCE = vy`; VF = the dropped bit. The words with y = 0
are the one-operand aliases, with the same meaning (assumption log 12). -/
def Obligations.ShiftsSetDroppedBit : Prop :=
  (∀ x y, y ≠ 0 → Decodes (formatXYN 0x8 x y 0x6) (.shrVxVy x y) ∧ Decodes (formatXYN 0x8 x y 0xE) (.shlVxVy x y)) ∧
  (∀ x, Decodes (formatXYN 0x8 x 0 0x6) (.shrVx x) ∧ Decodes (formatXYN 0x8 x 0 0xE) (.shlVx x)) ∧
  (∀ x s, exec (.shrVx x) s = exec (.shrVxVy x 0) s ∧ exec (.shlVx x) s = exec (.shlVxVy x 0) s) ∧
  ∀ x y s, let src := (getV s (if s.cfg.shiftSource = .vx then x else y)).toNat
    (∃ t b f, exec (.shrVxVy x y) s = .next t ∧ WritesVFlag s t x b f ∧ b.toNat = src / 2 ∧ f.toNat = src % 2) ∧
    ∃ t b f, exec (.shlVxVy x y) s = .next t ∧ WritesVFlag s t x b f ∧ b.toNat = src * 2 % 256 ∧
      f.toNat = src / 128

/-- 30_encoding.md R91: the one-operand shifts are the words with y = 0 (assumption log 12), and shift Vx, or V0 under
`SHIFT_SOURCE = vy`. -/
def Obligations.ShiftAliasesShiftVxOrV0 : Prop :=
  ∀ x, Decodes (formatXYN 0x8 x 0 0x6) (.shrVx x) ∧ Decodes (formatXYN 0x8 x 0 0xE) (.shlVx x) ∧
  ∀ s, let src := (getV s (if s.cfg.shiftSource = .vx then x else 0)).toNat
    (∃ t b f, exec (.shrVx x) s = .next t ∧ WritesVFlag s t x b f ∧ b.toNat = src / 2 ∧ f.toNat = src % 2) ∧
    ∃ t b f, exec (.shlVx x) s = .next t ∧ WritesVFlag s t x b f ∧ b.toNat = src * 2 % 256 ∧ f.toNat = src / 128

/-- 42_alu.md R143: one draw, any byte, masked with kk; the next draw is any byte again. -/
def Obligations.RndMasksAFreeByte : Prop :=
  (∀ r r' : Byte, ∃ e, randAnswer e = r ∧ randAnswer (afterRand e) = r') ∧ (∀ x kk, Decodes (formatXK 0xC x kk) (.rnd x kk)) ∧
  ∀ x kk s, ∃ t, exec (.rnd x kk) s = .next t ∧ t = { s with v := t.v, env := afterRand s.env } ∧
    ∀ r, getV t r = if r = x then randAnswer s.env &&& kk else getV s r

/-! ### Index and sprite -/

/-- 43_index_sprite.md R160, 45_timer_memory.md R193 and R194: the three writers of I; VF is not written. -/
def Obligations.IndexLoads : Prop :=
  (∀ nnn, Decodes (formatA 0xA nnn) (.ldINnn nnn)) ∧
  (∀ x, Decodes (formatXK 0xF x 0x1E) (.addIVx x) ∧ Decodes (formatXK 0xF x 0x29) (.ldFVx x)) ∧
  (∀ nnn s, ∃ t, exec (.ldINnn nnn) s = .next t ∧ OnlyI s t ∧ t.i.toNat = nnn.toNat) ∧
  (∀ x s, ∃ t, exec (.addIVx x) s = .next t ∧ OnlyI s t ∧ t.i.toNat = (s.i.toNat + (getV s x).toNat) % 65536) ∧
  ∀ x s, ∃ t, exec (.ldFVx x) s = .next t ∧ OnlyI s t ∧
    t.i.toNat = 5 * (if s.cfg.glyphIndex = .full then (getV s x).toNat else (getV s x).toNat % 16)

/-- 43_index_sprite.md R161, its frame: DRW completes, writes VF with 0 or 1, sets the redraw flag, and changes no byte
outside the framebuffer and nothing else. -/
def Obligations.DrwCompletesInsideFramebuffer : Prop :=
  ∀ x y n, Decodes (formatXYN 0xD x y n) (.drw x y n) ∧
  ∀ s, ∃ t, exec (.drw x y n) s = .next t ∧ t = { s with v := t.v, mem := t.mem, redraw := true } ∧
    (getV t 15 = 0 ∨ getV t 15 = 1) ∧ (∀ r, r ≠ 15 → getV t r = getV s r) ∧
    ∀ a, a % 4096 < 0xF00 → memRead t.mem a = memRead s.mem a

/-- 43_index_sprite.md R161, whole: row by row. Row `r` is read from the memory the rows above have been drawn in, its 1 bits
invert the pixels they lie on, wrapped modulo 64 and 32, and VF is 1 exactly if one of them was lit, else 0; the redraw
flag is set, and nothing else changes. -/
def Obligations.DrwDrawsRowByRow : Prop :=
  ∀ x y n, Decodes (formatXYN 0xD x y n) (.drw x y n) ∧
  ∀ s, ∃ (t : State) (ms : Nat → Memory), exec (.drw x y n) s = .next t ∧ ms 0 = s.mem ∧ ms n.val = t.mem ∧
    t = { s with v := t.v, mem := t.mem, redraw := true } ∧ (∀ r, r ≠ 15 → getV t r = getV s r) ∧
    let cx := (getV s x).toNat
    let cy := (getV s y).toNat
    let row := fun r => memRead (ms r) (s.i.toNat + r)
    (∀ r < n.val,
      (∀ a, a % 4096 < 0xF00 → memRead (ms (r + 1)) a = memRead (ms r) a) ∧
      ∀ px < 64, ∀ py < 32, pixel (ms (r + 1)) px py = (pixel (ms r) px py != rowCovers cx cy r (row r) px py)) ∧
    (getV t 15 = 1 ↔ ∃ r < n.val, ∃ px < 64, ∃ py < 32,
      rowCovers cx cy r (row r) px py = true ∧ pixel (ms r) px py = true) ∧
    (getV t 15 = 0 ∨ getV t 15 = 1)

/-- 43_index_sprite.md R161: a sprite whose bytes lie outside the framebuffer is XORed onto the pixels as it stood in memory,
and VF is 1 exactly if a lit pixel was cleared. -/
def Obligations.DrwXorsSpriteOntoPixels : Prop :=
  ∀ x y n s, (∀ r < n.val, (s.i.toNat + r) % 4096 < 0xF00) →
    let covers := spriteCovers (getV s x).toNat (getV s y).toNat n.val (fun r => memRead s.mem (s.i.toNat + r))
    ∃ t, exec (.drw x y n) s = .next t ∧
      (∀ px < 64, ∀ py < 32, pixel t.mem px py = (pixel s.mem px py != covers px py)) ∧
      (getV t 15 = 1 ↔ ∃ px < 64, ∃ py < 32, pixel s.mem px py = true ∧ pixel t.mem px py = false)

/-- The testable property S4 of 95_test_vectors.md: a sprite drawn twice at the same place leaves every byte as it was, and
the second draw collides if the first lit a pixel. -/
def Obligations.DrwTwiceRestoresScreen : Prop :=
  ∀ x y n s, x ≠ 15 → y ≠ 15 → (∀ r < n.val, (s.i.toNat + r) % 4096 < 0xF00) →
    ∃ t u, exec (.drw x y n) s = .next t ∧ exec (.drw x y n) t = .next u ∧
      (∀ a, memRead u.mem a = memRead s.mem a) ∧
      ((∃ px < 64, ∃ py < 32, pixel s.mem px py = false ∧ pixel t.mem px py = true) → getV u 15 = 1)

/-! ### Keys -/

/-- 44_keys.md R181 and R182, with R180: one poll, then a skip exactly if it answers the key in Vx, or exactly if it does
not. Consecutive polls may answer differently (R180): after any answer any answer can come. -/
def Obligations.KeySkipsCompareOnePoll : Prop :=
  (∀ k k', ∃ e, keyAnswer e = k ∧ keyAnswer (afterKey e) = k') ∧
  (∀ cfg x, cfg.keyDispatch = .exact →
    decode cfg (formatXK 0xE x 0x9E) = .ok (.skp x) ∧ decode cfg (formatXK 0xE x 0xA1) = .ok (.sknp x)) ∧
  ∀ x s, let pressed := ∃ k, keyAnswer s.env = some k ∧ k.val = (getV s x).toNat
    let polled := { s with env := afterKey s.env }
    (∃ t, exec (.skp x) s = .next t ∧ SkipsIf polled t pressed) ∧
    ∃ t, exec (.sknp x) s = .next t ∧ SkipsIf polled t (¬pressed)

/-- 45_timer_memory.md R198: LD Vx, K with a key at its first poll writes it and goes on; with none it waits. -/
def Obligations.WaitKeyTakesKeyOrWaits : Prop :=
  (∀ x, Decodes (formatXK 0xF x 0x0A) (.ldVxK x)) ∧
  (∀ x s k, keyAnswer s.env = some k → ∃ t, exec (.ldVxK x) s = .next t ∧
    t = { s with v := t.v, run := .running, env := afterKey s.env } ∧
    ∀ r, getV t r = if r = x then BitVec.ofNat 8 k.val else getV s r) ∧
  ∀ x s, keyAnswer s.env = none →
    exec (.ldVxK x) s = .next { s with run := .waitingKey x, env := afterKey s.env }

/-! ### Timers and bulk memory -/

/-- 45_timer_memory.md R190, R191 and R192; the tick bookkeeping stays (60_exceptions.md R232). -/
def Obligations.TimerRegisterMoves : Prop :=
  (∀ x, Decodes (formatXK 0xF x 0x07) (.ldVxDt x) ∧ Decodes (formatXK 0xF x 0x15) (.ldDtVx x) ∧
    Decodes (formatXK 0xF x 0x18) (.ldStVx x)) ∧
  ∀ x s, (∃ t, exec (.ldVxDt x) s = .next t ∧ WritesV s t x s.dt) ∧
    (∃ t, exec (.ldDtVx x) s = .next t ∧ t = { s with dt := getV s x }) ∧
    ∃ t, exec (.ldStVx x) s = .next t ∧ t = { s with st := getV s x }

/-- 45_timer_memory.md R195: hundreds, tens, ones at I, I + 1, I + 2 modulo 4096; I and every other byte unchanged. -/
def Obligations.BcdStoresThreeDigits : Prop :=
  (∀ x, Decodes (formatXK 0xF x 0x33) (.ldBVx x)) ∧
  ∀ x s, ∃ (t : State) (h te o : Byte), exec (.ldBVx x) s = .next t ∧ OnlyMem s t ∧
    StoresAt s t (indexAddr s) [h, te, o] ∧
    h.toNat = (getV s x).toNat / 100 ∧ te.toNat = (getV s x).toNat / 10 % 10 ∧ o.toNat = (getV s x).toNat % 10

/-- 45_timer_memory.md R196: V0..Vx at I, I + 1, ... modulo 4096; I and every other byte unchanged. -/
def Obligations.BulkStoreWritesRegisters : Prop :=
  (∀ x, Decodes (formatXK 0xF x 0x55) (.ldMemVx x)) ∧
  ∀ x s, ∃ t, exec (.ldMemVx x) s = .next t ∧ OnlyMem s t ∧
    (∀ r : Reg, r ≤ x → memRead t.mem (indexAddr s + r.val) = getV s r) ∧
    ∀ a, (∀ r : Reg, r ≤ x → a % 4096 ≠ (indexAddr s + r.val) % 4096) → memRead t.mem a = memRead s.mem a

/-- 45_timer_memory.md R197: V0..Vx from I, I + 1, ... modulo 4096; registers above x, I and memory unchanged. -/
def Obligations.BulkLoadReadsRegisters : Prop :=
  (∀ x, Decodes (formatXK 0xF x 0x65) (.ldVxMem x)) ∧
  ∀ x s, ∃ t, exec (.ldVxMem x) s = .next t ∧ OnlyV s t ∧
    ∀ r, getV t r = if r ≤ x then memRead s.mem (indexAddr s + r.val) else getV s r

/-- 45_timer_memory.md R196 and R197: a bulk load after a bulk store of the same registers leaves the registers alone. -/
def Obligations.BulkLoadUndoesBulkStore : Prop :=
  ∀ x s, ∃ t, exec (.ldMemVx x) s = .next t ∧ exec (.ldVxMem x) t = .next t

/-! ### Which instructions write what -/

/-- 10_state.md R22 and R33, 20_memory.md R58 and R59: I, PC, the stack, the redraw flag, the timers and memory are written by
the named instructions only, and CLS and DRW write nothing outside the framebuffer. -/
def Obligations.ElementsWrittenOnlyByTheirWriters : Prop :=
  ∀ i s t, exec i s = .next t →
    (writesI i = false → t.i = s.i) ∧ (writesPc i = false → t.pc = s.pc) ∧
    (writesStack i = false → t.stack = s.stack) ∧ (setsRedraw i = false → t.redraw = s.redraw) ∧
    (writesDt i = false → t.dt = s.dt) ∧ (writesSt i = false → t.st = s.st) ∧
    (writesMem i = false → t.mem = s.mem) ∧
    (setsRedraw i = true → ∀ a, a % 4096 < 0xF00 → memRead t.mem a = memRead s.mem a)

/-- 10_state.md R21: an instruction changes no V register but its destination, and VF where it writes a flag. -/
def Obligations.RegistersWrittenOnlyAsDestination : Prop :=
  ∀ i s t r, exec i s = .next t → destV i r = false → getV t r = getV s r

/-- 60_exceptions.md R232 and 10_state.md R29: no instruction touches the tick bookkeeping, the configuration, the cycle's
latches, the marks (which its cycle updates) or the render and trace ports, and only the drawing instructions take an input. -/
def Obligations.BookkeepingNotWrittenByInstructions : Prop :=
  ∀ i s t, exec i s = .next t →
    t.lastTickMs = s.lastTickMs ∧ t.cfg = s.cfg ∧ t.fetchAddr = s.fetchAddr ∧ t.fetchWord = s.fetchWord ∧
    t.renderOut = s.renderOut ∧ t.traceOut = s.traceOut ∧ t.unwritten = s.unwritten ∧ (drawsInput i = false → t.env = s.env)

/-- 10_state.md R26 and 60_exceptions.md R230: no instruction reads ST, so it can influence nothing but itself. -/
def Obligations.SoundTimerInfluencesNothing : Prop :=
  ∀ i s t b, exec i s = .next t → exec i { s with st := b } = .next { t with st := if writesSt i then t.st else b }

/-! ### The host -/

/-- 70_reset_and_hazards.md R261 and R262; 00_scope.md R16: no load inside a cycle (nor into a Faulted or Stopped block, the
model's reading of "ROM load, after reset", assumption log 16). That a Running block takes a load when cycles have run since its
reset is the model's choice (assumption log 21). -/
def Obligations.RomLoadsAt200OrIsRefused : Prop :=
  (∀ bytes s, s.run = .running → bytes.length ≤ 3584 →
    ∃ t, loadRom (some bytes) s = .ok t ∧ OnlyMem s t ∧ StoresAt s t 0x200 bytes) ∧
  (∀ bytes s, s.run = .running → 3584 < bytes.length → loadRom (some bytes) s = .error .romTooLong) ∧
  (∀ s, s.run = .running → loadRom none s = .error .romUnreadable) ∧
  (∀ rom s x, s.run = .waitingKey x → loadRom rom s = .error .midInstruction) ∧
  ∀ rom s, (s.run = .stopped ∨ ∃ r, s.run = .faulted r) → loadRom rom s = .error .noRun

/-- 60_exceptions.md R238 and 70_reset_and_hazards.md R260, R265: a stop is taken from Running only (a Faulted or Stopped block
has no run to stop, assumption log 16), a reset from every run state but the key wait, and the reset discards the whole state of
the block. -/
def Obligations.HostStopsAndResetsBetweenCycles : Prop :=
  (∀ s, s.run = .running → hostStop s = .ok { s with run := .stopped }) ∧
  (∀ s x, s.run = .waitingKey x →
    hostStop s = .error .midInstruction ∧ hostReset s = .error .midInstruction ∧
    ∀ rom, hostReload rom s = .error .midInstruction) ∧
  (∀ s, (s.run = .stopped ∨ ∃ r, s.run = .faulted r) → hostStop s = .error .noRun) ∧
  ∀ s, (∀ x, s.run ≠ .waitingKey x) → ∃ t, hostReset s = .ok t ∧
    t = { State.reset with cfg := s.cfg, env := s.env, mem := t.mem, unwritten := resetMarks s.cfg.resetRegs } ∧
    Memory.wf t.mem ∧ ∀ a < 4096, memRead t.mem a = if h : a < 80 then s.cfg.glyphBytes[a] else 0

/-- 70_reset_and_hazards.md R261 to R265: a reload is the reset, which discards the whole state, and then the ROM load into the
reset block. It has the load's two LoadErrors; otherwise everything but the ROM's bytes is as the reset leaves it, and the first
cycle fetches the ROM's first word at 0x200, a missing byte reading 0 (R262). -/
def Obligations.ReloadResetsThenLoadsRom : Prop :=
  ∀ s, (∀ x, s.run ≠ .waitingKey x) →
    hostReset s = .ok (resetOf s) ∧ (∀ rom, hostReload rom s = loadRom rom (resetOf s)) ∧
    hostReload none s = .error .romUnreadable ∧
    ∀ bytes, (3584 < bytes.length → hostReload (some bytes) s = .error .romTooLong) ∧
      (bytes.length ≤ 3584 → ∃ t, hostReload (some bytes) s = .ok t ∧ OnlyMem (resetOf s) t ∧
        StoresAt (resetOf s) t 0x200 bytes ∧ t.run = .running ∧ t.pc = 0x200 ∧
        memFetch t.mem t.pc.toNat = bytes.getD 0 0 ++ bytes.getD 1 0)

/-! ### Which instructions read what -/

/-- 10_state.md R33, and R41's "a read of one": a V register or I that an instruction's row does not name as read influences
nothing but itself, so the fault of `RESET_REGS = unwritten` misses no read. -/
def Obligations.UnreadRegistersInfluenceNothing : Prop :=
  ∀ i s t, exec i s = .next t →
    (∀ r b, readsV s.cfg i r = false → ∃ u, exec i (setV s r b) = .next u ∧ OnlyV t u ∧
      ∀ q, q ≠ r → getV u q = getV t q) ∧
    ∀ w, readsI i = false → ∃ u, exec i (setI s w) = .next u ∧ OnlyI t u
end

