-- ==== Sys2Proof/Laws/Environment.lean ====
section
/-! SUPPORT. The draws from the environment: an answer still to come is the head of its list, an empty list gives a free
value, and the clock never goes back. -/

namespace Sys2Proof.Machine

@[simp] theorem keyAnswer_cons (k : Option Key) (ks : List (Option Key)) (rs : List Byte) (ws : List Nat) (now : Int)
    (n : Nat) : keyAnswer ⟨k :: ks, rs, ws, now, n⟩ = k := rfl

@[simp] theorem keyAnswer_nil (rs : List Byte) (ws : List Nat) (now : Int) (n : Nat) :
    keyAnswer ⟨[], rs, ws, now, n⟩ = Config.freeKey n := rfl

@[simp] theorem randAnswer_cons (ks : List (Option Key)) (r : Byte) (rs : List Byte) (ws : List Nat) (now : Int)
    (n : Nat) : randAnswer ⟨ks, r :: rs, ws, now, n⟩ = r := rfl

@[simp] theorem randAnswer_nil (ks : List (Option Key)) (ws : List Nat) (now : Int) (n : Nat) :
    randAnswer ⟨ks, [], ws, now, n⟩ = Config.freeRand8 n := rfl

/-- A key poll and a random draw take no time. -/
@[simp] theorem afterKey_nowMs (e : Env) : (afterKey e).nowMs = e.nowMs := by
  unfold afterKey
  split <;> rfl

@[simp] theorem afterRand_nowMs (e : Env) : (afterRand e).nowMs = e.nowMs := by
  unfold afterRand
  split <;> rfl

/-- A clock reading is the clock's latest reading afterwards. -/
@[simp] theorem afterClock_nowMs (e : Env) : (afterClock e).nowMs = clockAnswer e := by
  unfold afterClock
  split <;> rfl

/-- The clock is monotonic (60_exceptions.md R235). -/
theorem nowMs_le_clockAnswer (e : Env) : e.nowMs ≤ clockAnswer e := by
  unfold clockAnswer
  omega

end Sys2Proof.Machine
end

