-- ==== Sys2Proof/Laws/Memory.lean ====
section
/-! SUPPORT. The laws of memory: a read after a write, a read after a run of writes, that every operation keeps the
canonical form, and what toggling a pixel does to the pixels. -/

namespace Sys2Proof.Machine

/-! ### Cells -/

theorem cellAt_filter_self (m : Memory) (k : Nat) : cellAt (m.filter (fun c => c.1 != k)) k = background k := by
  induction m with
  | nil => rfl
  | cons c m ih =>
    by_cases h : c.1 = k
    · simp [h, ih]
    · simp [h, cellAt, ih]

theorem cellAt_filter_other (m : Memory) {k j : Nat} (h : j ≠ k) :
    cellAt (m.filter (fun c => c.1 != k)) j = cellAt m j := by
  induction m with
  | nil => rfl
  | cons c m ih =>
    by_cases hc : c.1 = k
    · have : ¬ k = j := fun e => h e.symm
      simp [hc, cellAt, ih, this]
    · simp [hc, cellAt, ih]

theorem cellAt_cellInsert_other (m : Memory) {k j : Nat} (b : Byte) (h : j ≠ k) :
    cellAt (cellInsert k b m) j = cellAt m j := by
  have h' : ¬ k = j := fun e => h e.symm
  induction m with
  | nil => simp [cellInsert, cellAt, h']
  | cons c m ih =>
    unfold cellInsert
    split
    · simp [cellAt, h']
    · simp [cellAt, ih]

theorem cellAt_cellInsert_self (m : Memory) (k : Nat) (b : Byte) (hm : ∀ c ∈ m, c.1 ≠ k) :
    cellAt (cellInsert k b m) k = b := by
  induction m with
  | nil => simp [cellInsert, cellAt]
  | cons c m ih =>
    have hc : c.1 ≠ k := hm c (by simp)
    unfold cellInsert
    split
    · simp [cellAt]
    · simp [cellAt, hc, ih (fun d hd => hm d (by simp [hd]))]

/-- A cell read after a cell is set. -/
theorem cellAt_cellSet (m : Memory) (k j : Nat) (b : Byte) :
    cellAt (cellSet m k b) j = if j = k then b else cellAt m j := by
  unfold cellSet
  by_cases hj : j = k
  · subst hj
    by_cases hb : b = background j
    · simp [hb, cellAt_filter_self]
    · simp only [hb, if_false, if_true]
      exact cellAt_cellInsert_self _ _ _ (by simp)
  · by_cases hb : b = background k
    · simp [hb, hj, cellAt_filter_other]
    · simp [hb, hj, cellAt_cellInsert_other, cellAt_filter_other]

/-! ### Bytes -/

/-- An address is read modulo 4096 (20_memory.md R51). -/
theorem memRead_mod (m : Memory) (a : Nat) : memRead m (a % 4096) = memRead m a := by
  simp [memRead]

theorem memRead_congr (m : Memory) {a b : Nat} (h : a % 4096 = b % 4096) : memRead m a = memRead m b := by
  simp [memRead, h]

/-- A read returns the byte last written there, and a write leaves every other byte alone (20_memory.md R59, R60). -/
theorem memRead_memWrite (m : Memory) (a c : Nat) (b : Byte) :
    memRead (memWrite m a b) c = if c % 4096 = a % 4096 then b else memRead m c := by
  simp [memRead, memWrite, cellAt_cellSet]

/-- What lies outside a run of writes reads as before. -/
theorem memRead_memWriteList_outside (bs : List Byte) (m : Memory) (a c : Nat)
    (h : ∀ k < bs.length, c % 4096 ≠ (a + k) % 4096) : memRead (memWriteList m a bs) c = memRead m c := by
  induction bs generalizing m a with
  | nil => rfl
  | cons b bs ih =>
    have h0 : c % 4096 ≠ a % 4096 := h 0 (by simp)
    rw [memWriteList, ih, memRead_memWrite, if_neg h0]
    intro k hk
    have := h (k + 1) (by simpa using hk)
    rwa [show a + 1 + k = a + (k + 1) by omega]

/-- The bytes of a run of writes no longer than the address space stand where they were written. -/
theorem memRead_memWriteList_inside (bs : List Byte) (m : Memory) (a k : Nat) (hl : bs.length ≤ 4096)
    (hk : k < bs.length) : memRead (memWriteList m a bs) (a + k) = bs[k] := by
  induction bs generalizing m a k with
  | nil => simp at hk
  | cons b bs ih =>
    simp only [List.length_cons] at hl hk
    cases k with
    | zero =>
      rw [memWriteList, memRead_memWriteList_outside]
      · simp [memRead_memWrite]
      · intro j hj
        omega
    | succ k =>
      rw [memWriteList, show a + (k + 1) = a + 1 + k by omega, ih _ _ _ (by omega) (by omega)]
      simp

/-! ### The canonical form -/

theorem mem_cellInsert {m : Memory} {k : Nat} {b : Byte} {c : Host.Cell} :
    c ∈ cellInsert k b m ↔ c = (k, b) ∨ c ∈ m := by
  induction m with
  | nil => simp [cellInsert]
  | cons d m ih =>
    unfold cellInsert
    split
    · simp
    · simp only [List.mem_cons, ih]
      tauto

theorem pairwise_cellInsert {m : Memory} {k : Nat} (b : Byte) (hm : m.Pairwise (fun c d => c.1 < d.1))
    (hk : ∀ c ∈ m, c.1 ≠ k) : (cellInsert k b m).Pairwise (fun c d => c.1 < d.1) := by
  induction m with
  | nil => simp [cellInsert]
  | cons d m ih =>
    rw [List.pairwise_cons] at hm
    unfold cellInsert
    split
    · rename_i hlt
      rw [List.pairwise_cons]
      refine ⟨fun c hc => ?_, List.pairwise_cons.2 hm⟩
      rcases List.mem_cons.1 hc with rfl | hc
      · exact hlt
      · exact lt_trans hlt (hm.1 c hc)
    · rename_i hlt
      have hne : d.1 ≠ k := hk d (by simp)
      rw [List.pairwise_cons]
      refine ⟨fun c hc => ?_, ih hm.2 (fun c hc => hk c (by simp [hc]))⟩
      rcases mem_cellInsert.1 hc with rfl | hc
      · simp only
        omega
      · exact hm.1 c hc

theorem wf_nil : Memory.wf [] := by simp [Memory.wf]

/-- Setting a cell keeps the canonical form. -/
theorem wf_cellSet {m : Memory} {k : Nat} (b : Byte) (hk : k < 4096) (hm : Memory.wf m) :
    Memory.wf (cellSet m k b) := by
  have hp : (m.filter (fun c => c.1 != k)).Pairwise (fun c d => c.1 < d.1) := hm.1.filter _
  have hf : ∀ c ∈ m.filter (fun c => c.1 != k), c.1 ≠ k := by simp
  have hin : ∀ c ∈ m.filter (fun c => c.1 != k), c.1 < 4096 ∧ c.2 ≠ background c.1 :=
    fun c hc => hm.2 c (List.mem_of_mem_filter hc)
  unfold cellSet
  by_cases hb : b = background k
  · simp only [hb, if_true]
    exact ⟨hp, hin⟩
  · simp only [hb, if_false]
    refine ⟨pairwise_cellInsert b hp hf, fun c hc => ?_⟩
    rcases mem_cellInsert.1 hc with rfl | hc
    · exact ⟨hk, hb⟩
    · exact hin c hc

/-- A write of a byte keeps the canonical form. -/
theorem wf_memWrite {m : Memory} (a : Nat) (b : Byte) (hm : Memory.wf m) : Memory.wf (memWrite m a b) :=
  wf_cellSet b (Nat.mod_lt _ (by decide)) hm

/-- A run of writes keeps the canonical form. -/
theorem wf_memWriteList (bs : List Byte) {m : Memory} (a : Nat) (hm : Memory.wf m) :
    Memory.wf (memWriteList m a bs) := by
  induction bs generalizing m a with
  | nil => exact hm
  | cons b bs ih => exact ih _ (wf_memWrite a b hm)

theorem wf_memPlaceWord {m : Memory} (a : Nat) (w : Word) (hm : Memory.wf m) : Memory.wf (memPlaceWord m a w) :=
  wf_memWriteList _ _ hm

/-- Toggling a pixel keeps the canonical form. -/
theorem wf_togglePixel {m : Memory} (px py : Nat) (hm : Memory.wf m) : Memory.wf (togglePixel m px py) :=
  wf_memWrite _ _ hm

/-! ### Words -/

theorem wordOfBytes_high_low (w : Word) : wordOfBytes (highByte w) (lowByte w) = w := by
  unfold wordOfBytes highByte lowByte
  apply BitVec.eq_of_getLsbD_eq
  intro i hi
  rw [BitVec.getLsbD_append]
  by_cases h : i < 8
  · simp [h]
  · have h8 : i - 8 < 8 := by omega
    have hs : 8 + (i - 8) = i := by omega
    simp [h, h8, hs]

/-- A word placed at an address is what a fetch there reads (20_memory.md R55, R56). -/
theorem memFetch_memPlaceWord (m : Memory) (a : Nat) (w : Word) : memFetch (memPlaceWord m a w) a = w := by
  have h0 := memRead_memWriteList_inside [highByte w, lowByte w] m a 0 (by simp) (by simp)
  have h1 := memRead_memWriteList_inside [highByte w, lowByte w] m a 1 (by simp) (by simp)
  simp only [Nat.add_zero, List.getElem_cons_zero, List.getElem_cons_succ] at h0 h1
  rw [memFetch, memPlaceWord, h0, h1, wordOfBytes_high_low]

/-! ### Pixels -/

theorem fbByte_range {px py : Nat} (hx : px < 64) (hy : py < 32) : 0xF00 ≤ fbByte px py ∧ fbByte px py < 4096 := by
  simp only [fbByte, Config.fbBase]
  omega

/-- Toggling a pixel changes no byte outside the framebuffer. -/
theorem memRead_togglePixel_outside (m : Memory) {px py a : Nat} (hx : px < 64) (hy : py < 32)
    (ha : a % 4096 < 0xF00) : memRead (togglePixel m px py) a = memRead m a := by
  have := fbByte_range hx hy
  rw [togglePixel, memRead_memWrite, if_neg]
  omega

/-- Toggling a pixel inverts that pixel and no other (20_memory.md R53). -/
theorem pixel_togglePixel (m : Memory) {px py qx qy : Nat} (hx : px < 64) (hy : py < 32) (hqx : qx < 64)
    (hqy : qy < 32) :
    pixel (togglePixel m px py) qx qy = (pixel m qx qy != decide (qx = px ∧ qy = py)) := by
  have hp := fbByte_range hx hy
  have hq := fbByte_range hqx hqy
  have hbit : fbBit qx < 8 := by simp only [fbBit]; omega
  rw [pixel, pixel, togglePixel, memRead_memWrite]
  by_cases hb : fbByte qx qy = fbByte px py
  · rw [if_pos (by rw [hb]), ← hb, BitVec.getLsbD_xor]
    have hone : (1#8 <<< fbBit px).getLsbD (fbBit qx) = decide (qx = px ∧ qy = py) := by
      have key : fbBit qx = fbBit px ↔ (qx = px ∧ qy = py) := by
        simp only [fbByte, fbBit, Config.fbBase] at *
        omega
      rw [BitVec.getLsbD_shiftLeft, BitVec.getLsbD_one]
      by_cases e : fbBit qx = fbBit px
      · simp [key.1 e, ← e, hbit]
      · have hne : ¬ (qx = px ∧ qy = py) := fun h => e (key.2 h)
        simp only [hne, decide_false, hbit, decide_true, Bool.true_and]
        by_cases hlt : fbBit qx < fbBit px
        · simp [hlt]
        · have : ¬ fbBit qx - fbBit px = 0 := by omega
          simp [hlt, this]
    rw [hone]
  · have hne : ¬ (qx = px ∧ qy = py) := by
      rintro ⟨rfl, rfl⟩
      exact hb rfl
    rw [if_neg (by omega)]
    simp [hne]

/-- Equal pixels are equal framebuffer bytes (20_memory.md R53). -/
theorem memRead_eq_of_pixels {m m' : Memory} (h : ∀ px < 64, ∀ py < 32, pixel m px py = pixel m' px py) {a : Nat}
    (ha : 0xF00 ≤ a % 4096) : memRead m a = memRead m' a := by
  rw [← memRead_mod m, ← memRead_mod m']
  have hlt : a % 4096 < 4096 := Nat.mod_lt _ (by decide)
  generalize a % 4096 = k at ha hlt
  apply BitVec.eq_of_getLsbD_eq
  intro i hi
  have hp := h (8 * ((k - 0xF00) % 8) + (7 - i)) (by omega) ((k - 0xF00) / 8) (by omega)
  have hbyte : fbByte (8 * ((k - 0xF00) % 8) + (7 - i)) ((k - 0xF00) / 8) = k := by
    simp only [fbByte, Config.fbBase]
    omega
  have hbit : fbBit (8 * ((k - 0xF00) % 8) + (7 - i)) = i := by
    simp only [fbBit]
    omega
  simpa only [pixel, hbyte, hbit] using hp

/-! ### The cleared framebuffer -/

/-- Clearing the framebuffer keeps the canonical form. -/
theorem wf_clearFramebuffer {m : Memory} (hm : Memory.wf m) : Memory.wf (clearFramebuffer m) :=
  ⟨hm.1.filter _, fun c hc => hm.2 c (List.mem_of_mem_filter hc)⟩

theorem cellAt_clearFramebuffer (m : Memory) (k : Nat) :
    cellAt (clearFramebuffer m) k = if 0xF00 ≤ k then 0 else cellAt m k := by
  unfold clearFramebuffer
  induction m with
  | nil =>
    have : 0xF00 ≤ k → ¬ k < 80 := by omega
    by_cases h : 0xF00 ≤ k <;> simp_all [cellAt, background]
  | cons c m ih =>
    by_cases hc : c.1 < 0xF00
    · rw [List.filter_cons_of_pos (by simpa using hc), cellAt, cellAt, ih]
      by_cases hk : c.1 = k
      · rw [if_pos hk, if_neg (by omega), if_pos hk]
      · rw [if_neg hk, if_neg hk]
    · rw [List.filter_cons_of_neg (by simpa using hc), ih, cellAt]
      by_cases hk : c.1 = k
      · rw [if_pos (by omega), if_pos (by omega)]
      · rw [if_neg hk]

/-- A cleared framebuffer reads 0, and every byte outside it reads as before (41_flow.md R101). -/
theorem memRead_clearFramebuffer (m : Memory) (a : Nat) :
    memRead (clearFramebuffer m) a = if 0xF00 ≤ a % 4096 then 0 else memRead m a :=
  cellAt_clearFramebuffer m _

/-- Clearing the framebuffer reads as the 256 byte writes of 41_flow.md R101 do. -/
theorem memRead_clearFramebuffer_eq_writes (m : Memory) (a : Nat) :
    memRead (clearFramebuffer m) a = memRead (memWriteList m 0xF00 (List.replicate 256 0)) a := by
  rw [memRead_clearFramebuffer]
  generalize hbs : List.replicate 256 (0 : Byte) = bs
  have hl : bs.length = 256 := by rw [← hbs, List.length_replicate]
  by_cases h : 0xF00 ≤ a % 4096
  · have hr := memRead_memWriteList_inside bs m 0xF00 (a % 4096 - 0xF00) (by omega) (by omega)
    rw [show 0xF00 + (a % 4096 - 0xF00) = a % 4096 by omega, memRead_mod] at hr
    rw [if_pos h, hr]
    subst hbs
    rw [List.getElem_replicate]
  · rw [if_neg h, memRead_memWriteList_outside]
    intro k hk
    omega

end Sys2Proof.Machine
end

