-- ==== Sys2Proof/Laws/State.lean ====
section
/-! SUPPORT. One lemma per field per update of the state, so that no later proof unfolds a record update, and what a
register reads after each update of the register file. -/

namespace Sys2Proof.Machine

/-! ### setV -/

@[simp] theorem setV_v (s : State) (x : Reg) (b : Byte) : (setV s x b).v = s.v.set x b := rfl
@[simp] theorem setV_i (s : State) (x : Reg) (b : Byte) : (setV s x b).i = s.i := rfl
@[simp] theorem setV_pc (s : State) (x : Reg) (b : Byte) : (setV s x b).pc = s.pc := rfl
@[simp] theorem setV_dt (s : State) (x : Reg) (b : Byte) : (setV s x b).dt = s.dt := rfl
@[simp] theorem setV_st (s : State) (x : Reg) (b : Byte) : (setV s x b).st = s.st := rfl
@[simp] theorem setV_stack (s : State) (x : Reg) (b : Byte) : (setV s x b).stack = s.stack := rfl
@[simp] theorem setV_redraw (s : State) (x : Reg) (b : Byte) : (setV s x b).redraw = s.redraw := rfl
@[simp] theorem setV_lastTickMs (s : State) (x : Reg) (b : Byte) : (setV s x b).lastTickMs = s.lastTickMs := rfl
@[simp] theorem setV_run (s : State) (x : Reg) (b : Byte) : (setV s x b).run = s.run := rfl
@[simp] theorem setV_mem (s : State) (x : Reg) (b : Byte) : (setV s x b).mem = s.mem := rfl
@[simp] theorem setV_cfg (s : State) (x : Reg) (b : Byte) : (setV s x b).cfg = s.cfg := rfl
@[simp] theorem setV_unwritten (s : State) (x : Reg) (b : Byte) : (setV s x b).unwritten = s.unwritten := rfl
@[simp] theorem setV_fetchAddr (s : State) (x : Reg) (b : Byte) : (setV s x b).fetchAddr = s.fetchAddr := rfl
@[simp] theorem setV_fetchWord (s : State) (x : Reg) (b : Byte) : (setV s x b).fetchWord = s.fetchWord := rfl
@[simp] theorem setV_renderOut (s : State) (x : Reg) (b : Byte) : (setV s x b).renderOut = s.renderOut := rfl
@[simp] theorem setV_traceOut (s : State) (x : Reg) (b : Byte) : (setV s x b).traceOut = s.traceOut := rfl
@[simp] theorem setV_faultOut (s : State) (x : Reg) (b : Byte) : (setV s x b).faultOut = s.faultOut := rfl
@[simp] theorem setV_env (s : State) (x : Reg) (b : Byte) : (setV s x b).env = s.env := rfl

/-! ### setVFlag -/

@[simp] theorem setVFlag_i (s : State) (x : Reg) (b f : Byte) : (setVFlag s x b f).i = s.i := rfl
@[simp] theorem setVFlag_pc (s : State) (x : Reg) (b f : Byte) : (setVFlag s x b f).pc = s.pc := rfl
@[simp] theorem setVFlag_dt (s : State) (x : Reg) (b f : Byte) : (setVFlag s x b f).dt = s.dt := rfl
@[simp] theorem setVFlag_st (s : State) (x : Reg) (b f : Byte) : (setVFlag s x b f).st = s.st := rfl
@[simp] theorem setVFlag_stack (s : State) (x : Reg) (b f : Byte) : (setVFlag s x b f).stack = s.stack := rfl
@[simp] theorem setVFlag_redraw (s : State) (x : Reg) (b f : Byte) : (setVFlag s x b f).redraw = s.redraw := rfl
@[simp] theorem setVFlag_lastTickMs (s : State) (x : Reg) (b f : Byte) : (setVFlag s x b f).lastTickMs = s.lastTickMs := rfl
@[simp] theorem setVFlag_run (s : State) (x : Reg) (b f : Byte) : (setVFlag s x b f).run = s.run := rfl
@[simp] theorem setVFlag_mem (s : State) (x : Reg) (b f : Byte) : (setVFlag s x b f).mem = s.mem := rfl
@[simp] theorem setVFlag_cfg (s : State) (x : Reg) (b f : Byte) : (setVFlag s x b f).cfg = s.cfg := rfl
@[simp] theorem setVFlag_unwritten (s : State) (x : Reg) (b f : Byte) : (setVFlag s x b f).unwritten = s.unwritten := rfl
@[simp] theorem setVFlag_fetchAddr (s : State) (x : Reg) (b f : Byte) : (setVFlag s x b f).fetchAddr = s.fetchAddr := rfl
@[simp] theorem setVFlag_fetchWord (s : State) (x : Reg) (b f : Byte) : (setVFlag s x b f).fetchWord = s.fetchWord := rfl
@[simp] theorem setVFlag_renderOut (s : State) (x : Reg) (b f : Byte) : (setVFlag s x b f).renderOut = s.renderOut := rfl
@[simp] theorem setVFlag_traceOut (s : State) (x : Reg) (b f : Byte) : (setVFlag s x b f).traceOut = s.traceOut := rfl
@[simp] theorem setVFlag_faultOut (s : State) (x : Reg) (b f : Byte) : (setVFlag s x b f).faultOut = s.faultOut := rfl
@[simp] theorem setVFlag_env (s : State) (x : Reg) (b f : Byte) : (setVFlag s x b f).env = s.env := rfl

/-! ### setI -/

@[simp] theorem setI_v (s : State) (w : Word) : (setI s w).v = s.v := rfl
@[simp] theorem setI_i (s : State) (w : Word) : (setI s w).i = w := rfl
@[simp] theorem setI_pc (s : State) (w : Word) : (setI s w).pc = s.pc := rfl
@[simp] theorem setI_dt (s : State) (w : Word) : (setI s w).dt = s.dt := rfl
@[simp] theorem setI_st (s : State) (w : Word) : (setI s w).st = s.st := rfl
@[simp] theorem setI_stack (s : State) (w : Word) : (setI s w).stack = s.stack := rfl
@[simp] theorem setI_redraw (s : State) (w : Word) : (setI s w).redraw = s.redraw := rfl
@[simp] theorem setI_lastTickMs (s : State) (w : Word) : (setI s w).lastTickMs = s.lastTickMs := rfl
@[simp] theorem setI_run (s : State) (w : Word) : (setI s w).run = s.run := rfl
@[simp] theorem setI_mem (s : State) (w : Word) : (setI s w).mem = s.mem := rfl
@[simp] theorem setI_cfg (s : State) (w : Word) : (setI s w).cfg = s.cfg := rfl
@[simp] theorem setI_unwritten (s : State) (w : Word) : (setI s w).unwritten = s.unwritten := rfl
@[simp] theorem setI_fetchAddr (s : State) (w : Word) : (setI s w).fetchAddr = s.fetchAddr := rfl
@[simp] theorem setI_fetchWord (s : State) (w : Word) : (setI s w).fetchWord = s.fetchWord := rfl
@[simp] theorem setI_renderOut (s : State) (w : Word) : (setI s w).renderOut = s.renderOut := rfl
@[simp] theorem setI_traceOut (s : State) (w : Word) : (setI s w).traceOut = s.traceOut := rfl
@[simp] theorem setI_faultOut (s : State) (w : Word) : (setI s w).faultOut = s.faultOut := rfl
@[simp] theorem setI_env (s : State) (w : Word) : (setI s w).env = s.env := rfl
@[simp] theorem getV_setI (s : State) (w : Word) (r : Reg) : getV (setI s w) r = getV s r := rfl

/-! ### setPc -/

@[simp] theorem setPc_v (s : State) (a : Word) : (setPc s a).v = s.v := rfl
@[simp] theorem setPc_i (s : State) (a : Word) : (setPc s a).i = s.i := rfl
@[simp] theorem setPc_pc (s : State) (a : Word) : (setPc s a).pc = a := rfl
@[simp] theorem setPc_dt (s : State) (a : Word) : (setPc s a).dt = s.dt := rfl
@[simp] theorem setPc_st (s : State) (a : Word) : (setPc s a).st = s.st := rfl
@[simp] theorem setPc_stack (s : State) (a : Word) : (setPc s a).stack = s.stack := rfl
@[simp] theorem setPc_redraw (s : State) (a : Word) : (setPc s a).redraw = s.redraw := rfl
@[simp] theorem setPc_lastTickMs (s : State) (a : Word) : (setPc s a).lastTickMs = s.lastTickMs := rfl
@[simp] theorem setPc_run (s : State) (a : Word) : (setPc s a).run = s.run := rfl
@[simp] theorem setPc_mem (s : State) (a : Word) : (setPc s a).mem = s.mem := rfl
@[simp] theorem setPc_cfg (s : State) (a : Word) : (setPc s a).cfg = s.cfg := rfl
@[simp] theorem setPc_unwritten (s : State) (a : Word) : (setPc s a).unwritten = s.unwritten := rfl
@[simp] theorem setPc_fetchAddr (s : State) (a : Word) : (setPc s a).fetchAddr = s.fetchAddr := rfl
@[simp] theorem setPc_fetchWord (s : State) (a : Word) : (setPc s a).fetchWord = s.fetchWord := rfl
@[simp] theorem setPc_renderOut (s : State) (a : Word) : (setPc s a).renderOut = s.renderOut := rfl
@[simp] theorem setPc_traceOut (s : State) (a : Word) : (setPc s a).traceOut = s.traceOut := rfl
@[simp] theorem setPc_faultOut (s : State) (a : Word) : (setPc s a).faultOut = s.faultOut := rfl
@[simp] theorem setPc_env (s : State) (a : Word) : (setPc s a).env = s.env := rfl
@[simp] theorem getV_setPc (s : State) (a : Word) (r : Reg) : getV (setPc s a) r = getV s r := rfl

/-! ### skip -/

@[simp] theorem skip_v (s : State) : (skip s).v = s.v := rfl
@[simp] theorem skip_i (s : State) : (skip s).i = s.i := rfl
@[simp] theorem skip_pc (s : State) : (skip s).pc = nextPc s.pc := rfl
@[simp] theorem skip_dt (s : State) : (skip s).dt = s.dt := rfl
@[simp] theorem skip_st (s : State) : (skip s).st = s.st := rfl
@[simp] theorem skip_stack (s : State) : (skip s).stack = s.stack := rfl
@[simp] theorem skip_redraw (s : State) : (skip s).redraw = s.redraw := rfl
@[simp] theorem skip_lastTickMs (s : State) : (skip s).lastTickMs = s.lastTickMs := rfl
@[simp] theorem skip_run (s : State) : (skip s).run = s.run := rfl
@[simp] theorem skip_mem (s : State) : (skip s).mem = s.mem := rfl
@[simp] theorem skip_cfg (s : State) : (skip s).cfg = s.cfg := rfl
@[simp] theorem skip_unwritten (s : State) : (skip s).unwritten = s.unwritten := rfl
@[simp] theorem skip_fetchAddr (s : State) : (skip s).fetchAddr = s.fetchAddr := rfl
@[simp] theorem skip_fetchWord (s : State) : (skip s).fetchWord = s.fetchWord := rfl
@[simp] theorem skip_renderOut (s : State) : (skip s).renderOut = s.renderOut := rfl
@[simp] theorem skip_traceOut (s : State) : (skip s).traceOut = s.traceOut := rfl
@[simp] theorem skip_faultOut (s : State) : (skip s).faultOut = s.faultOut := rfl
@[simp] theorem skip_env (s : State) : (skip s).env = s.env := rfl
@[simp] theorem getV_skip (s : State) (r : Reg) : getV (skip s) r = getV s r := rfl

/-! ### raiseFault -/

@[simp] theorem raiseFault_v (k : FaultKind) (s : State) : (raiseFault k s).v = s.v := rfl
@[simp] theorem raiseFault_i (k : FaultKind) (s : State) : (raiseFault k s).i = s.i := rfl
@[simp] theorem raiseFault_pc (k : FaultKind) (s : State) : (raiseFault k s).pc = s.pc := rfl
@[simp] theorem raiseFault_dt (k : FaultKind) (s : State) : (raiseFault k s).dt = s.dt := rfl
@[simp] theorem raiseFault_st (k : FaultKind) (s : State) : (raiseFault k s).st = s.st := rfl
@[simp] theorem raiseFault_stack (k : FaultKind) (s : State) : (raiseFault k s).stack = s.stack := rfl
@[simp] theorem raiseFault_redraw (k : FaultKind) (s : State) : (raiseFault k s).redraw = s.redraw := rfl
@[simp] theorem raiseFault_lastTickMs (k : FaultKind) (s : State) : (raiseFault k s).lastTickMs = s.lastTickMs := rfl
@[simp] theorem raiseFault_run (k : FaultKind) (s : State) : (raiseFault k s).run = .faulted ⟨k, s.fetchWord, s.fetchAddr⟩ := rfl
@[simp] theorem raiseFault_mem (k : FaultKind) (s : State) : (raiseFault k s).mem = s.mem := rfl
@[simp] theorem raiseFault_cfg (k : FaultKind) (s : State) : (raiseFault k s).cfg = s.cfg := rfl
@[simp] theorem raiseFault_unwritten (k : FaultKind) (s : State) : (raiseFault k s).unwritten = s.unwritten := rfl
@[simp] theorem raiseFault_fetchAddr (k : FaultKind) (s : State) : (raiseFault k s).fetchAddr = s.fetchAddr := rfl
@[simp] theorem raiseFault_fetchWord (k : FaultKind) (s : State) : (raiseFault k s).fetchWord = s.fetchWord := rfl
@[simp] theorem raiseFault_renderOut (k : FaultKind) (s : State) : (raiseFault k s).renderOut = s.renderOut := rfl
@[simp] theorem raiseFault_traceOut (k : FaultKind) (s : State) : (raiseFault k s).traceOut = s.traceOut := rfl
@[simp] theorem raiseFault_faultOut (k : FaultKind) (s : State) : (raiseFault k s).faultOut = some ⟨k, s.fetchWord, s.fetchAddr⟩ := rfl
@[simp] theorem raiseFault_env (k : FaultKind) (s : State) : (raiseFault k s).env = s.env := rfl
@[simp] theorem getV_raiseFault (k : FaultKind) (s : State) (r : Reg) : getV (raiseFault k s) r = getV s r := rfl

/-! ### storeBytes -/

@[simp] theorem storeBytes_v (s : State) (a : Nat) (bs : List Byte) : (storeBytes s a bs).v = s.v := rfl
@[simp] theorem storeBytes_i (s : State) (a : Nat) (bs : List Byte) : (storeBytes s a bs).i = s.i := rfl
@[simp] theorem storeBytes_pc (s : State) (a : Nat) (bs : List Byte) : (storeBytes s a bs).pc = s.pc := rfl
@[simp] theorem storeBytes_dt (s : State) (a : Nat) (bs : List Byte) : (storeBytes s a bs).dt = s.dt := rfl
@[simp] theorem storeBytes_st (s : State) (a : Nat) (bs : List Byte) : (storeBytes s a bs).st = s.st := rfl
@[simp] theorem storeBytes_stack (s : State) (a : Nat) (bs : List Byte) : (storeBytes s a bs).stack = s.stack := rfl
@[simp] theorem storeBytes_redraw (s : State) (a : Nat) (bs : List Byte) : (storeBytes s a bs).redraw = s.redraw := rfl
@[simp] theorem storeBytes_lastTickMs (s : State) (a : Nat) (bs : List Byte) : (storeBytes s a bs).lastTickMs = s.lastTickMs := rfl
@[simp] theorem storeBytes_run (s : State) (a : Nat) (bs : List Byte) : (storeBytes s a bs).run = s.run := rfl
@[simp] theorem storeBytes_mem (s : State) (a : Nat) (bs : List Byte) : (storeBytes s a bs).mem = memWriteList s.mem a bs := rfl
@[simp] theorem storeBytes_cfg (s : State) (a : Nat) (bs : List Byte) : (storeBytes s a bs).cfg = s.cfg := rfl
@[simp] theorem storeBytes_unwritten (s : State) (a : Nat) (bs : List Byte) : (storeBytes s a bs).unwritten = s.unwritten := rfl
@[simp] theorem storeBytes_fetchAddr (s : State) (a : Nat) (bs : List Byte) : (storeBytes s a bs).fetchAddr = s.fetchAddr := rfl
@[simp] theorem storeBytes_fetchWord (s : State) (a : Nat) (bs : List Byte) : (storeBytes s a bs).fetchWord = s.fetchWord := rfl
@[simp] theorem storeBytes_renderOut (s : State) (a : Nat) (bs : List Byte) : (storeBytes s a bs).renderOut = s.renderOut := rfl
@[simp] theorem storeBytes_traceOut (s : State) (a : Nat) (bs : List Byte) : (storeBytes s a bs).traceOut = s.traceOut := rfl
@[simp] theorem storeBytes_faultOut (s : State) (a : Nat) (bs : List Byte) : (storeBytes s a bs).faultOut = s.faultOut := rfl
@[simp] theorem storeBytes_env (s : State) (a : Nat) (bs : List Byte) : (storeBytes s a bs).env = s.env := rfl
@[simp] theorem getV_storeBytes (s : State) (a : Nat) (bs : List Byte) (r : Reg) : getV (storeBytes s a bs) r = getV s r := rfl

/-! ### clearScreen -/

@[simp] theorem clearScreen_v (s : State) : (clearScreen s).v = s.v := rfl
@[simp] theorem clearScreen_i (s : State) : (clearScreen s).i = s.i := rfl
@[simp] theorem clearScreen_pc (s : State) : (clearScreen s).pc = s.pc := rfl
@[simp] theorem clearScreen_dt (s : State) : (clearScreen s).dt = s.dt := rfl
@[simp] theorem clearScreen_st (s : State) : (clearScreen s).st = s.st := rfl
@[simp] theorem clearScreen_stack (s : State) : (clearScreen s).stack = s.stack := rfl
@[simp] theorem clearScreen_lastTickMs (s : State) : (clearScreen s).lastTickMs = s.lastTickMs := rfl
@[simp] theorem clearScreen_run (s : State) : (clearScreen s).run = s.run := rfl
@[simp] theorem clearScreen_cfg (s : State) : (clearScreen s).cfg = s.cfg := rfl
@[simp] theorem clearScreen_unwritten (s : State) : (clearScreen s).unwritten = s.unwritten := rfl
@[simp] theorem clearScreen_fetchAddr (s : State) : (clearScreen s).fetchAddr = s.fetchAddr := rfl
@[simp] theorem clearScreen_fetchWord (s : State) : (clearScreen s).fetchWord = s.fetchWord := rfl
@[simp] theorem clearScreen_renderOut (s : State) : (clearScreen s).renderOut = s.renderOut := rfl
@[simp] theorem clearScreen_traceOut (s : State) : (clearScreen s).traceOut = s.traceOut := rfl
@[simp] theorem clearScreen_faultOut (s : State) : (clearScreen s).faultOut = s.faultOut := rfl
@[simp] theorem clearScreen_env (s : State) : (clearScreen s).env = s.env := rfl
@[simp] theorem clearScreen_mem (s : State) : (clearScreen s).mem = clearFramebuffer s.mem := rfl
@[simp] theorem clearScreen_redraw (s : State) : (clearScreen s).redraw = true := rfl
@[simp] theorem getV_clearScreen (s : State) (r : Reg) : getV (clearScreen s) r = getV s r := rfl

/-! ### loadRegs -/

@[simp] theorem loadRegs_i (s : State) (a n : Nat) : (loadRegs s a n).i = s.i := rfl
@[simp] theorem loadRegs_pc (s : State) (a n : Nat) : (loadRegs s a n).pc = s.pc := rfl
@[simp] theorem loadRegs_dt (s : State) (a n : Nat) : (loadRegs s a n).dt = s.dt := rfl
@[simp] theorem loadRegs_st (s : State) (a n : Nat) : (loadRegs s a n).st = s.st := rfl
@[simp] theorem loadRegs_stack (s : State) (a n : Nat) : (loadRegs s a n).stack = s.stack := rfl
@[simp] theorem loadRegs_redraw (s : State) (a n : Nat) : (loadRegs s a n).redraw = s.redraw := rfl
@[simp] theorem loadRegs_lastTickMs (s : State) (a n : Nat) : (loadRegs s a n).lastTickMs = s.lastTickMs := rfl
@[simp] theorem loadRegs_run (s : State) (a n : Nat) : (loadRegs s a n).run = s.run := rfl
@[simp] theorem loadRegs_mem (s : State) (a n : Nat) : (loadRegs s a n).mem = s.mem := rfl
@[simp] theorem loadRegs_cfg (s : State) (a n : Nat) : (loadRegs s a n).cfg = s.cfg := rfl
@[simp] theorem loadRegs_unwritten (s : State) (a n : Nat) : (loadRegs s a n).unwritten = s.unwritten := rfl
@[simp] theorem loadRegs_fetchAddr (s : State) (a n : Nat) : (loadRegs s a n).fetchAddr = s.fetchAddr := rfl
@[simp] theorem loadRegs_fetchWord (s : State) (a n : Nat) : (loadRegs s a n).fetchWord = s.fetchWord := rfl
@[simp] theorem loadRegs_renderOut (s : State) (a n : Nat) : (loadRegs s a n).renderOut = s.renderOut := rfl
@[simp] theorem loadRegs_traceOut (s : State) (a n : Nat) : (loadRegs s a n).traceOut = s.traceOut := rfl
@[simp] theorem loadRegs_faultOut (s : State) (a n : Nat) : (loadRegs s a n).faultOut = s.faultOut := rfl
@[simp] theorem loadRegs_env (s : State) (a n : Nat) : (loadRegs s a n).env = s.env := rfl

/-! ### clearPorts -/

@[simp] theorem clearPorts_v (s : State) : (clearPorts s).v = s.v := rfl
@[simp] theorem clearPorts_i (s : State) : (clearPorts s).i = s.i := rfl
@[simp] theorem clearPorts_pc (s : State) : (clearPorts s).pc = s.pc := rfl
@[simp] theorem clearPorts_dt (s : State) : (clearPorts s).dt = s.dt := rfl
@[simp] theorem clearPorts_st (s : State) : (clearPorts s).st = s.st := rfl
@[simp] theorem clearPorts_stack (s : State) : (clearPorts s).stack = s.stack := rfl
@[simp] theorem clearPorts_redraw (s : State) : (clearPorts s).redraw = s.redraw := rfl
@[simp] theorem clearPorts_lastTickMs (s : State) : (clearPorts s).lastTickMs = s.lastTickMs := rfl
@[simp] theorem clearPorts_run (s : State) : (clearPorts s).run = s.run := rfl
@[simp] theorem clearPorts_mem (s : State) : (clearPorts s).mem = s.mem := rfl
@[simp] theorem clearPorts_cfg (s : State) : (clearPorts s).cfg = s.cfg := rfl
@[simp] theorem clearPorts_unwritten (s : State) : (clearPorts s).unwritten = s.unwritten := rfl
@[simp] theorem clearPorts_fetchAddr (s : State) : (clearPorts s).fetchAddr = s.fetchAddr := rfl
@[simp] theorem clearPorts_fetchWord (s : State) : (clearPorts s).fetchWord = s.fetchWord := rfl
@[simp] theorem clearPorts_renderOut (s : State) : (clearPorts s).renderOut = none := rfl
@[simp] theorem clearPorts_traceOut (s : State) : (clearPorts s).traceOut = none := rfl
@[simp] theorem clearPorts_faultOut (s : State) : (clearPorts s).faultOut = none := rfl
@[simp] theorem clearPorts_env (s : State) : (clearPorts s).env = s.env := rfl
@[simp] theorem getV_clearPorts (s : State) (r : Reg) : getV (clearPorts s) r = getV s r := rfl

/-! ### fetchAdvance -/

@[simp] theorem fetchAdvance_v (s : State) : (fetchAdvance s).v = s.v := rfl
@[simp] theorem fetchAdvance_i (s : State) : (fetchAdvance s).i = s.i := rfl
@[simp] theorem fetchAdvance_pc (s : State) : (fetchAdvance s).pc = nextPc s.pc := rfl
@[simp] theorem fetchAdvance_dt (s : State) : (fetchAdvance s).dt = s.dt := rfl
@[simp] theorem fetchAdvance_st (s : State) : (fetchAdvance s).st = s.st := rfl
@[simp] theorem fetchAdvance_stack (s : State) : (fetchAdvance s).stack = s.stack := rfl
@[simp] theorem fetchAdvance_redraw (s : State) : (fetchAdvance s).redraw = s.redraw := rfl
@[simp] theorem fetchAdvance_lastTickMs (s : State) : (fetchAdvance s).lastTickMs = s.lastTickMs := rfl
@[simp] theorem fetchAdvance_run (s : State) : (fetchAdvance s).run = s.run := rfl
@[simp] theorem fetchAdvance_mem (s : State) : (fetchAdvance s).mem = s.mem := rfl
@[simp] theorem fetchAdvance_cfg (s : State) : (fetchAdvance s).cfg = s.cfg := rfl
@[simp] theorem fetchAdvance_unwritten (s : State) : (fetchAdvance s).unwritten = s.unwritten := rfl
@[simp] theorem fetchAdvance_fetchAddr (s : State) : (fetchAdvance s).fetchAddr = s.pc := rfl
@[simp] theorem fetchAdvance_fetchWord (s : State) : (fetchAdvance s).fetchWord = memFetch s.mem s.pc.toNat := rfl
@[simp] theorem fetchAdvance_renderOut (s : State) : (fetchAdvance s).renderOut = s.renderOut := rfl
@[simp] theorem fetchAdvance_traceOut (s : State) : (fetchAdvance s).traceOut = s.traceOut := rfl
@[simp] theorem fetchAdvance_faultOut (s : State) : (fetchAdvance s).faultOut = s.faultOut := rfl
@[simp] theorem fetchAdvance_env (s : State) : (fetchAdvance s).env = s.env := rfl
@[simp] theorem getV_fetchAdvance (s : State) (r : Reg) : getV (fetchAdvance s) r = getV s r := rfl

/-! ### timerCheck -/

@[simp] theorem timerCheck_v (s : State) : (timerCheck s).v = s.v := rfl
@[simp] theorem timerCheck_i (s : State) : (timerCheck s).i = s.i := rfl
@[simp] theorem timerCheck_pc (s : State) : (timerCheck s).pc = s.pc := rfl
@[simp] theorem timerCheck_dt (s : State) : (timerCheck s).dt = countdown (ticks s) s.dt := rfl
@[simp] theorem timerCheck_st (s : State) : (timerCheck s).st = countdown (ticks s) s.st := rfl
@[simp] theorem timerCheck_stack (s : State) : (timerCheck s).stack = s.stack := rfl
@[simp] theorem timerCheck_redraw (s : State) : (timerCheck s).redraw = s.redraw := rfl
@[simp] theorem timerCheck_lastTickMs (s : State) : (timerCheck s).lastTickMs = if ticks s then some (clockAnswer s.env) else s.lastTickMs := rfl
@[simp] theorem timerCheck_run (s : State) : (timerCheck s).run = s.run := rfl
@[simp] theorem timerCheck_mem (s : State) : (timerCheck s).mem = s.mem := rfl
@[simp] theorem timerCheck_cfg (s : State) : (timerCheck s).cfg = s.cfg := rfl
@[simp] theorem timerCheck_unwritten (s : State) : (timerCheck s).unwritten = s.unwritten := rfl
@[simp] theorem timerCheck_fetchAddr (s : State) : (timerCheck s).fetchAddr = s.fetchAddr := rfl
@[simp] theorem timerCheck_fetchWord (s : State) : (timerCheck s).fetchWord = s.fetchWord := rfl
@[simp] theorem timerCheck_renderOut (s : State) : (timerCheck s).renderOut = s.renderOut := rfl
@[simp] theorem timerCheck_traceOut (s : State) : (timerCheck s).traceOut = s.traceOut := rfl
@[simp] theorem timerCheck_faultOut (s : State) : (timerCheck s).faultOut = s.faultOut := rfl
@[simp] theorem timerCheck_env (s : State) : (timerCheck s).env = afterClock s.env := rfl
@[simp] theorem getV_timerCheck (s : State) (r : Reg) : getV (timerCheck s) r = getV s r := rfl

/-! ### Reading a register after a write -/

@[simp] theorem getV_setV (s : State) (x : Reg) (b : Byte) (r : Reg) :
    getV (setV s x b) r = if r = x then b else getV s r := by
  simp only [getV, setV, Fin.getElem_fin, Vector.getElem_set, Fin.ext_iff, eq_comm]

@[simp] theorem getV_setVFlag (s : State) (x : Reg) (b f : Byte) (r : Reg) :
    getV (setVFlag s x b f) r = if r = 15 then f else if r = x then b else getV s r := by
  simp [setVFlag, vf]

@[simp] theorem getV_loadRegs (s : State) (a n : Nat) (r : Reg) :
    getV (loadRegs s a n) r = if r.val < n then memRead s.mem (a + r.val) else getV s r := by
  simp [getV, loadRegs]

/-- A write of a result and a flag changes V registers only. -/
theorem setVFlag_eq (s : State) (x : Reg) (b f : Byte) :
    setVFlag s x b f = { s with v := (s.v.set x b).set vf f } := rfl

/-- Two states whose registers read alike have the same register file. -/
theorem v_ext {s t : State} (h : ∀ r, getV s r = getV t r) : s.v = t.v := by
  apply Vector.ext
  intro k hk
  exact h ⟨k, hk⟩

end Sys2Proof.Machine
end

