-- ==== Sys2Proof/Laws/Ops.lean ====
section
/-! SUPPORT. What each shared operation can do, once: PC arithmetic, skips, the stack with its faults, the key poll, and
the draw of a sprite. -/

namespace Sys2Proof.Machine

/-! ### PC -/

theorem wrap12_toNat (w : Word) : (wrap12 w).toNat = w.toNat % 4096 := by
  unfold wrap12
  rw [BitVec.toNat_and]
  exact Nat.and_two_pow_sub_one_eq_mod _ 12

theorem nextPc_toNat (a : Word) : (nextPc a).toNat = (a.toNat + 2) % 4096 := by
  unfold nextPc
  rw [wrap12_toNat, BitVec.toNat_add]
  simp only [BitVec.toNat_ofNat]
  omega

theorem addrOperand_toNat (a : Addr) : (addrOperand a).toNat = a.toNat := by
  unfold addrOperand
  rw [BitVec.toNat_setWidth]
  have := a.isLt
  omega

theorem jumpV0Target_toNat (s : State) (nnn : Addr) :
    (jumpV0Target s nnn).toNat = (nnn.toNat + (getV s 0).toNat) % 4096 := by
  unfold jumpV0Target
  have h0 := (getV s 0).isLt
  have ha := nnn.isLt
  rw [wrap12_toNat, BitVec.toNat_add, addrOperand_toNat, BitVec.toNat_setWidth]
  omega

theorem skipIf_true (s : State) : skipIf true s = skip s := rfl
theorem skipIf_false (s : State) : skipIf false s = s := rfl

/-- A conditional skip changes PC only, by Skip or not at all. -/
theorem skipIf_eq (c : Bool) (s : State) : skipIf c s = { s with pc := if c then nextPc s.pc else s.pc } := by
  cases c <;> rfl

/-! ### The stack -/

/-- CALL's push: the fault with the stack full, else the return address pushed and the jump taken. -/
theorem callTo_cases (target : Word) (s : State) :
    (stackFull s = true ∧ callTo target s = raiseFault .stackOverflow s) ∨
    (stackFull s = false ∧ callTo target s = { s with stack := s.stack ++ [s.pc.setWidth 12], pc := target }) := by
  unfold callTo
  cases stackFull s <;> simp

/-- RET's pop: the fault with the stack empty, else the last entry taken off and jumped to. -/
theorem returnFrom_cases (s : State) :
    (s.stack = [] ∧ returnFrom s = raiseFault .stackUnderflow s) ∨
    ∃ l a, s.stack = l ++ [a] ∧ returnFrom s = { s with stack := l, pc := a.setWidth 16 } := by
  rcases List.eq_nil_or_concat s.stack with h | ⟨l, a, h⟩
  · exact .inl ⟨h, by simp [returnFrom, h]⟩
  · rw [List.concat_eq_append] at h
    exact .inr ⟨l, a, h, by simp [returnFrom, h]⟩

/-- CALL's push touches the stack, PC, the run state and the fault port only. -/
theorem callTo_eq (target : Word) (s : State) :
    callTo target s =
      { s with
        stack := (callTo target s).stack
        pc := (callTo target s).pc
        run := (callTo target s).run
        faultOut := (callTo target s).faultOut } := by
  rcases callTo_cases target s with ⟨-, e⟩ | ⟨-, e⟩
  · rw [e]; rfl
  · rw [e]

/-- RET's pop touches the stack, PC, the run state and the fault port only. -/
theorem returnFrom_eq (s : State) :
    returnFrom s =
      { s with
        stack := (returnFrom s).stack
        pc := (returnFrom s).pc
        run := (returnFrom s).run
        faultOut := (returnFrom s).faultOut } := by
  rcases returnFrom_cases s with ⟨-, e⟩ | ⟨_, _, -, e⟩
  · rw [e]; rfl
  · rw [e]

theorem stackFull_iff (s : State) : stackFull s = true ↔ s.cfg.stackDepth = some s.stack.length := by
  unfold stackFull
  cases s.cfg.stackDepth with
  | none => simp
  | some d =>
    simp only [beq_iff_eq, Option.some.injEq]
    exact eq_comm

/-! ### The key poll -/

/-- One poll: a key ends the wait and is written, no key leaves the block waiting. -/
theorem pollKey_cases (x : Reg) (s : State) :
    (∃ k, keyAnswer s.env = some k ∧
      pollKey x s = { setV s x (BitVec.ofNat 8 k.val) with run := .running, env := afterKey s.env }) ∨
    (keyAnswer s.env = none ∧ pollKey x s = { s with run := .waitingKey x, env := afterKey s.env }) := by
  unfold pollKey
  cases h : keyAnswer s.env with
  | none => exact .inr ⟨rfl, rfl⟩
  | some k => exact .inl ⟨k, rfl, rfl⟩

/-- One poll touches the V registers, the run state and the environment only. -/
theorem pollKey_eq (x : Reg) (s : State) :
    pollKey x s = { s with v := (pollKey x s).v, run := (pollKey x s).run, env := afterKey s.env } := by
  rcases pollKey_cases x s with ⟨_, -, e⟩ | ⟨-, e⟩
  · rw [e]; rfl
  · rw [e]

/-! ### Sprites -/

/-- One column: nothing on a 0 bit, else the pixel toggled and the hit recorded. -/
theorem drawPixel_cases (cx cy r : Nat) (row : Byte) (b : Blit) (c : Nat) :
    (row.getLsbD (7 - c) = false ∧ drawPixel cx cy r row b c = b) ∨
    (row.getLsbD (7 - c) = true ∧
      (drawPixel cx cy r row b c).mem = togglePixel b.mem ((cx + c) % 64) ((cy + r) % 32) ∧
      (drawPixel cx cy r row b c).hit = (b.hit || pixel b.mem ((cx + c) % 64) ((cy + r) % 32))) := by
  unfold drawPixel
  cases h : row.getLsbD (7 - c)
  · exact .inl ⟨rfl, by simp⟩
  · exact .inr ⟨rfl, by simp, by simp⟩

/-- Whatever one column keeps, a whole sprite keeps: the package of the two inductions over columns and rows. -/
theorem drawSprite_induction (P : Memory → Prop) (cx cy : Nat)
    (hP : ∀ m px py, px < 64 → py < 32 → P m → P (togglePixel m px py)) (base n : Nat) (m : Memory) (hm : P m) :
    P (drawSprite cx cy base n m).mem := by
  have hpix : ∀ r row b c, P b.mem → P (drawPixel cx cy r row b c).mem := by
    intro r row b c hb
    rcases drawPixel_cases cx cy r row b c with ⟨-, h⟩ | ⟨-, h, -⟩
    · rwa [h]
    · rw [h]
      exact hP _ _ _ (Nat.mod_lt _ (by decide)) (Nat.mod_lt _ (by decide)) hb
  have hcols : ∀ (cs : List Nat) r row b, P b.mem → P (cs.foldl (drawPixel cx cy r row) b).mem := by
    intro cs r row
    induction cs with
    | nil => exact fun b hb => hb
    | cons c cs ih => exact fun b hb => ih _ (hpix r row b c hb)
  have hrows : ∀ (rs : List Nat) b, P b.mem →
      P (rs.foldl (fun b r => drawRow cx cy r (memRead b.mem (base + r)) b) b).mem := by
    intro rs
    induction rs with
    | nil => exact fun b hb => hb
    | cons r rs ih => exact fun b hb => ih _ (hcols _ r _ b hb)
  exact hrows _ _ hm

/-- A sprite keeps the canonical form. -/
theorem wf_drawSprite {m : Memory} (cx cy base n : Nat) (hm : Memory.wf m) :
    Memory.wf (drawSprite cx cy base n m).mem :=
  drawSprite_induction Memory.wf cx cy (fun _ _ _ _ _ h => wf_togglePixel _ _ h) base n m hm

/-- A sprite changes no byte outside the framebuffer (20_memory.md R58). -/
theorem memRead_drawSprite_outside (cx cy base n : Nat) (m : Memory) {a : Nat} (ha : a % 4096 < 0xF00) :
    memRead (drawSprite cx cy base n m).mem a = memRead m a :=
  drawSprite_induction (fun m' => memRead m' a = memRead m a) cx cy
    (fun _ _ _ hx hy h => (memRead_togglePixel_outside _ hx hy ha).trans h) base n m rfl

/-- A sprite of one row more is the sprite, then that row from the memory so drawn. -/
theorem drawSprite_succ (cx cy base n : Nat) (m : Memory) :
    drawSprite cx cy base (n + 1) m =
      drawRow cx cy n (memRead (drawSprite cx cy base n m).mem (base + n)) (drawSprite cx cy base n m) := by
  simp [drawSprite, List.range_succ]

end Sys2Proof.Machine
end

