-- ==== Sys2Proof/Laws/Cycle.lean ====
section
/-! SUPPORT. What a cycle does around the instruction: the run start, the state an instruction begins in, and the trace,
redraw and timer steps at its end. -/

namespace Sys2Proof.Machine

/-! ### Before the instruction -/

/-- Once the run has started the run start does nothing (70_reset_and_hazards.md R263). -/
theorem runStart_some {s : State} {l : Int} (h : s.lastTickMs = some l) : runStart s = s := by
  simp [runStart, h]

theorem runStart_none {s : State} (h : s.lastTickMs = none) :
    runStart s = { s with lastTickMs := some (clockAnswer s.env), env := afterClock s.env } := by
  simp [runStart, h]

/-- The run start touches the timer bookkeeping and the clock only. -/
theorem runStart_eq (s : State) :
    runStart s = { s with lastTickMs := (runStart s).lastTickMs, env := (runStart s).env } := by
  cases h : s.lastTickMs with
  | some l => rw [runStart_some h]
  | none => rw [runStart_none h]

theorem runStart_lastTickMs_ne_none (s : State) : (runStart s).lastTickMs ≠ none := by
  cases h : s.lastTickMs with
  | some l => rw [runStart_some h, h]; simp
  | none => rw [runStart_none h]; simp

/-- The state an instruction begins in: PC advanced, the cycle's word and address latched, the ports clear, the run
started, and everything else as it was (30_encoding.md R94). -/
theorem beginCycle_eq (s : State) :
    beginCycle s =
      { s with
        pc := nextPc s.pc
        fetchAddr := s.pc
        fetchWord := memFetch s.mem s.pc.toNat
        renderOut := none
        traceOut := none
        faultOut := none
        lastTickMs := (beginCycle s).lastTickMs
        env := (beginCycle s).env } := by
  unfold beginCycle
  rw [runStart_eq (clearPorts s)]
  rfl

@[simp] theorem beginCycle_fetchWord (s : State) : (beginCycle s).fetchWord = memFetch s.mem s.pc.toNat := by
  rw [beginCycle_eq]

@[simp] theorem beginCycle_pc (s : State) : (beginCycle s).pc = nextPc s.pc := by
  rw [beginCycle_eq]

@[simp] theorem beginCycle_fetchAddr (s : State) : (beginCycle s).fetchAddr = s.pc := by
  rw [beginCycle_eq]

@[simp] theorem beginCycle_mem (s : State) : (beginCycle s).mem = s.mem := by
  rw [beginCycle_eq]

@[simp] theorem beginCycle_cfg (s : State) : (beginCycle s).cfg = s.cfg := by
  rw [beginCycle_eq]

@[simp] theorem beginCycle_unwritten (s : State) : (beginCycle s).unwritten = s.unwritten := by
  rw [beginCycle_eq]

@[simp] theorem beginCycle_stack (s : State) : (beginCycle s).stack = s.stack := by
  rw [beginCycle_eq]

@[simp] theorem beginCycle_redraw (s : State) : (beginCycle s).redraw = s.redraw := by
  rw [beginCycle_eq]

@[simp] theorem beginCycle_run (s : State) : (beginCycle s).run = s.run := by
  rw [beginCycle_eq]

@[simp] theorem beginCycle_dt (s : State) : (beginCycle s).dt = s.dt := by
  rw [beginCycle_eq]

@[simp] theorem beginCycle_st (s : State) : (beginCycle s).st = s.st := by
  rw [beginCycle_eq]

@[simp] theorem beginCycle_i (s : State) : (beginCycle s).i = s.i := by
  rw [beginCycle_eq]

@[simp] theorem beginCycle_v (s : State) : (beginCycle s).v = s.v := by
  rw [beginCycle_eq]

/-! ### After the instruction -/

/-- The trace touches the trace port only (60_exceptions.md R237). -/
theorem tracePoint_eq (s : State) : tracePoint s = { s with traceOut := (tracePoint s).traceOut } := by
  unfold tracePoint
  split <;> rfl

/-- The redraw point presents a frame if the flag is set, and leaves it clear (60_exceptions.md R233). -/
theorem renderPoint_eq (s : State) :
    renderPoint s =
      { s with
        renderOut := if s.redraw then some (framebuffer s.mem) else s.renderOut
        redraw := false } := by
  unfold renderPoint
  cases h : s.redraw
  · cases s
    simp_all
  · simp

/-- The period test is the spec's comparison with `periodMs = 1000 / TIMER_HZ` (60_exceptions.md R227). -/
theorem periodElapsed_iff {cfg : Config} (h : 0 < cfg.timerHz) (last now : Int) :
    periodElapsed cfg last now = true ↔ 1000 / cfg.timerHz ≤ ((now - last : Int) : Rat) := by
  have hden : (0 : Rat) < cfg.timerHz.den := by exact_mod_cast cfg.timerHz.den_pos
  rw [periodElapsed, decide_eq_true_iff, div_le_iff₀ h]
  nth_rewrite 3 [← Rat.num_div_den cfg.timerHz]
  rw [← mul_div_assoc, le_div_iff₀ hden]
  exact_mod_cast Iff.rfl

/-- A timer after a check: one less on a tick, never below 0 (60_exceptions.md R228). -/
theorem countdown_toNat (tick : Bool) (d : Byte) :
    (countdown tick d).toNat = if tick then d.toNat - 1 else d.toNat := by
  unfold countdown
  by_cases h : d = 0
  · subst h
    cases tick <;> rfl
  · have hd : d.toNat ≠ 0 := fun e => h (BitVec.eq_of_toNat_eq e)
    have hlt := d.isLt
    rw [if_neg h]
    cases tick
    · rfl
    · have h1 : (1 : Byte).toNat = 1 := rfl
      simp only [if_true, BitVec.toNat_sub, h1]
      omega

theorem finishCycle_running {s : State} (h : s.run = .running) :
    finishCycle s = timerCheck (renderPoint (tracePoint s)) := by
  simp [finishCycle, h]

/-- A cycle that has not completed runs none of its last steps (30_encoding.md R96). -/
theorem finishCycle_not_running {s : State} (h : s.run ≠ .running) : finishCycle s = s := by
  unfold finishCycle
  split <;> simp_all

/-- What the end of a completed cycle does to each part of the state. -/
theorem finishCycle_running_eq {s : State} (h : s.run = .running) :
    finishCycle s =
      { s with
        dt := countdown (ticks s) s.dt
        st := countdown (ticks s) s.st
        lastTickMs := if ticks s then some (clockAnswer s.env) else s.lastTickMs
        redraw := false
        renderOut := if s.redraw then some (framebuffer s.mem) else s.renderOut
        traceOut := (tracePoint s).traceOut
        env := afterClock s.env } := by
  rw [finishCycle_running h, renderPoint_eq, tracePoint_eq s]
  rfl

end Sys2Proof.Machine
end

