-- ==== Sys2Proof/Laws/Decode.lean ====
section
/-! SUPPORT. The fields of a word built in a format are what it was built from, so that decoding a built word is a lookup. -/

namespace Sys2Proof

theorem nibble_toNat (x : Fin 16) : (nibble x).toNat = x.val := rfl

/-- The number a word of format A is. -/
theorem formatA_toNat (op : BitVec 4) (nnn : Addr) : (formatA op nnn).toNat = op.toNat * 4096 + nnn.toNat := by
  rw [formatA, BitVec.toNat_append, Nat.shiftLeft_eq, Nat.mul_comm, ← Nat.two_pow_add_eq_or_of_lt nnn.isLt, Nat.mul_comm]

/-- The number a word of format XK is. -/
theorem formatXK_toNat (op : BitVec 4) (x : Reg) (kk : Byte) :
    (formatXK op x kk).toNat = op.toNat * 4096 + x.val * 256 + kk.toNat := by
  have hx : (nibble x).toNat < 2 ^ 4 := (nibble x).isLt
  rw [formatXK, BitVec.toNat_append, Nat.shiftLeft_eq, Nat.mul_comm, ← Nat.two_pow_add_eq_or_of_lt kk.isLt,
    BitVec.toNat_append, Nat.shiftLeft_eq, Nat.mul_comm op.toNat, ← Nat.two_pow_add_eq_or_of_lt hx, nibble_toNat]
  omega

/-- The number a word of format XYN is. -/
theorem formatXYN_toNat (op : BitVec 4) (x y : Reg) (n : Fin 16) :
    (formatXYN op x y n).toNat = op.toNat * 4096 + x.val * 256 + y.val * 16 + n.val := by
  have hx : (nibble x).toNat < 2 ^ 4 := (nibble x).isLt
  have hy : (nibble y).toNat < 2 ^ 4 := (nibble y).isLt
  have hn : (nibble n).toNat < 2 ^ 4 := (nibble n).isLt
  rw [formatXYN, BitVec.toNat_append, Nat.shiftLeft_eq, Nat.mul_comm, ← Nat.two_pow_add_eq_or_of_lt hn,
    BitVec.toNat_append, Nat.shiftLeft_eq, Nat.mul_comm _ (2 ^ 4), ← Nat.two_pow_add_eq_or_of_lt hy,
    BitVec.toNat_append, Nat.shiftLeft_eq, Nat.mul_comm op.toNat, ← Nat.two_pow_add_eq_or_of_lt hx]
  simp only [nibble_toNat]
  omega

/-! ### Fields as numbers -/

theorem fieldOp_toNat (w : Word) : (fieldOp w).toNat = w.toNat / 4096 := by
  have := w.isLt
  simp only [fieldOp, BitVec.extractLsb'_toNat, Nat.shiftRight_eq_div_pow]
  omega

theorem fieldX_val (w : Word) : (fieldX w).val = w.toNat / 256 % 16 := by
  simp [fieldX, Nat.shiftRight_eq_div_pow]

theorem fieldY_val (w : Word) : (fieldY w).val = w.toNat / 16 % 16 := by
  simp [fieldY, Nat.shiftRight_eq_div_pow]

theorem fieldN_val (w : Word) : (fieldN w).val = w.toNat % 16 := by
  simp [fieldN]

theorem fieldKk_toNat (w : Word) : (fieldKk w).toNat = w.toNat % 256 := by
  simp [fieldKk, BitVec.extractLsb'_toNat]

theorem fieldNnn_toNat (w : Word) : (fieldNnn w).toNat = w.toNat % 4096 := by
  simp [fieldNnn, BitVec.extractLsb'_toNat]

/-! ### Fields of built words -/

@[simp] theorem fieldOp_formatA (op : BitVec 4) (nnn : Addr) : fieldOp (formatA op nnn) = op := by
  have := nnn.isLt
  apply BitVec.eq_of_toNat_eq
  rw [fieldOp_toNat, formatA_toNat]
  omega

@[simp] theorem fieldNnn_formatA (op : BitVec 4) (nnn : Addr) : fieldNnn (formatA op nnn) = nnn := by
  have := nnn.isLt
  apply BitVec.eq_of_toNat_eq
  rw [fieldNnn_toNat, formatA_toNat]
  omega

@[simp] theorem fieldKk_formatA (op : BitVec 4) (nnn : Addr) : fieldKk (formatA op nnn) = nnn.setWidth 8 := by
  apply BitVec.eq_of_toNat_eq
  rw [fieldKk_toNat, formatA_toNat, BitVec.toNat_setWidth]
  omega

@[simp] theorem fieldOp_formatXK (op : BitVec 4) (x : Reg) (kk : Byte) : fieldOp (formatXK op x kk) = op := by
  have := kk.isLt
  apply BitVec.eq_of_toNat_eq
  rw [fieldOp_toNat, formatXK_toNat]
  omega

@[simp] theorem fieldX_formatXK (op : BitVec 4) (x : Reg) (kk : Byte) : fieldX (formatXK op x kk) = x := by
  have := kk.isLt
  apply Fin.ext
  rw [fieldX_val, formatXK_toNat]
  omega

@[simp] theorem fieldKk_formatXK (op : BitVec 4) (x : Reg) (kk : Byte) : fieldKk (formatXK op x kk) = kk := by
  have := kk.isLt
  apply BitVec.eq_of_toNat_eq
  rw [fieldKk_toNat, formatXK_toNat]
  omega

@[simp] theorem fieldOp_formatXYN (op : BitVec 4) (x y : Reg) (n : Fin 16) : fieldOp (formatXYN op x y n) = op := by
  apply BitVec.eq_of_toNat_eq
  rw [fieldOp_toNat, formatXYN_toNat]
  omega

@[simp] theorem fieldX_formatXYN (op : BitVec 4) (x y : Reg) (n : Fin 16) : fieldX (formatXYN op x y n) = x := by
  apply Fin.ext
  rw [fieldX_val, formatXYN_toNat]
  omega

@[simp] theorem fieldY_formatXYN (op : BitVec 4) (x y : Reg) (n : Fin 16) : fieldY (formatXYN op x y n) = y := by
  apply Fin.ext
  rw [fieldY_val, formatXYN_toNat]
  omega

@[simp] theorem fieldN_formatXYN (op : BitVec 4) (x y : Reg) (n : Fin 16) : fieldN (formatXYN op x y n) = n := by
  apply Fin.ext
  rw [fieldN_val, formatXYN_toNat]
  omega

end Sys2Proof
end

