-- ==== Sys2Proof/Laws/Exec.lean ====
section
/-! SUPPORT. What exec answers for each instruction, in terms of the shared operations, so that a proof about an
instruction rewrites with one equation and goes on with the operations' lemmas. -/

namespace Sys2Proof.Machine

theorem exec_sys (nnn : Addr) (s : State) : exec (.sys nnn) s = .next (s) := rfl

theorem exec_cls (s : State) : exec .cls s = .next (clearScreen s) := rfl

theorem exec_ret (s : State) : exec .ret s = .next (returnFrom s) := rfl

theorem exec_jp (nnn : Addr) (s : State) : exec (.jp nnn) s = .next (setPc s (addrOperand nnn)) := rfl

theorem exec_call (nnn : Addr) (s : State) : exec (.call nnn) s = .next (callTo (addrOperand nnn) s) := rfl

theorem exec_seVxKk (x : Reg) (kk : Byte) (s : State) : exec (.seVxKk x kk) s = .next (skipIf (getV s x == kk) s) := rfl

theorem exec_sneVxKk (x : Reg) (kk : Byte) (s : State) : exec (.sneVxKk x kk) s = .next (skipIf (getV s x != kk) s) := rfl

theorem exec_seVxVy (x : Reg) (y : Reg) (s : State) : exec (.seVxVy x y) s = .next (skipIf (getV s x == getV s y) s) := rfl

theorem exec_sneVxVy (x : Reg) (y : Reg) (s : State) : exec (.sneVxVy x y) s = .next (skipIf (getV s x != getV s y) s) := rfl

theorem exec_jpV0 (nnn : Addr) (s : State) : exec (.jpV0 nnn) s = .next (setPc s (jumpV0Target s nnn)) := rfl

theorem exec_ldVxKk (x : Reg) (kk : Byte) (s : State) : exec (.ldVxKk x kk) s = .next (setV s x kk) := rfl

theorem exec_addVxKk (x : Reg) (kk : Byte) (s : State) : exec (.addVxKk x kk) s = .next (setV s x (getV s x + kk)) := rfl

theorem exec_ldVxVy (x : Reg) (y : Reg) (s : State) : exec (.ldVxVy x y) s = .next (setV s x (getV s y)) := rfl

theorem exec_orVxVy (x : Reg) (y : Reg) (s : State) : exec (.orVxVy x y) s = .next (setV s x (getV s x ||| getV s y)) := rfl

theorem exec_andVxVy (x : Reg) (y : Reg) (s : State) : exec (.andVxVy x y) s = .next (setV s x (getV s x &&& getV s y)) := rfl

theorem exec_xorVxVy (x : Reg) (y : Reg) (s : State) : exec (.xorVxVy x y) s = .next (setV s x (getV s x ^^^ getV s y)) := rfl

theorem exec_addVxVy (x : Reg) (y : Reg) (s : State) :
    exec (.addVxVy x y) s =
      .next (setVFlag s x (getV s x + getV s y) (carryFlag (getV s x) (getV s y))) := rfl

theorem exec_subVxVy (x : Reg) (y : Reg) (s : State) :
    exec (.subVxVy x y) s =
      .next (setVFlag s x (getV s x - getV s y) (notBorrowFlag (getV s x) (getV s y))) := rfl

theorem exec_subnVxVy (x : Reg) (y : Reg) (s : State) :
    exec (.subnVxVy x y) s =
      .next (setVFlag s x (getV s y - getV s x) (notBorrowFlag (getV s y) (getV s x))) := rfl

theorem exec_shrVxVy (x : Reg) (y : Reg) (s : State) : exec (.shrVxVy x y) s = .next (shiftRight x y s) := rfl

theorem exec_shlVxVy (x : Reg) (y : Reg) (s : State) : exec (.shlVxVy x y) s = .next (shiftLeft x y s) := rfl

theorem exec_shrVx (x : Reg) (s : State) : exec (.shrVx x) s = .next (shiftRight x 0 s) := rfl

theorem exec_shlVx (x : Reg) (s : State) : exec (.shlVx x) s = .next (shiftLeft x 0 s) := rfl

theorem exec_rnd (x : Reg) (kk : Byte) (s : State) :
    exec (.rnd x kk) s =
      .next ({ setV s x (randAnswer s.env &&& kk) with env := afterRand s.env }) := rfl

theorem exec_ldINnn (nnn : Addr) (s : State) : exec (.ldINnn nnn) s = .next (setI s (addrOperand nnn)) := rfl

theorem exec_drw (x : Reg) (y : Reg) (n : Fin 16) (s : State) :
    exec (.drw x y n) s =
      .next ({ setV { s with mem := (drawOf x y n s).mem } vf (collisionFlag (drawOf x y n s).hit) with redraw := true }) := rfl

theorem exec_skp (x : Reg) (s : State) :
    exec (.skp x) s =
      .next ({ skipIf (keyMatches (keyAnswer s.env) (getV s x)) s with env := afterKey s.env }) := rfl

theorem exec_sknp (x : Reg) (s : State) :
    exec (.sknp x) s =
      .next ({ skipIf (!keyMatches (keyAnswer s.env) (getV s x)) s with env := afterKey s.env }) := rfl

theorem exec_ldVxDt (x : Reg) (s : State) : exec (.ldVxDt x) s = .next (setV s x s.dt) := rfl

theorem exec_ldDtVx (x : Reg) (s : State) : exec (.ldDtVx x) s = .next ({ s with dt := getV s x }) := rfl

theorem exec_ldStVx (x : Reg) (s : State) : exec (.ldStVx x) s = .next ({ s with st := getV s x }) := rfl

theorem exec_addIVx (x : Reg) (s : State) : exec (.addIVx x) s = .next (setI s (s.i + (getV s x).setWidth 16)) := rfl

theorem exec_ldFVx (x : Reg) (s : State) : exec (.ldFVx x) s = .next (setI s (glyphOperand s x)) := rfl

theorem exec_ldBVx (x : Reg) (s : State) : exec (.ldBVx x) s = .next (storeBytes s (indexAddr s) (bcdDigits (getV s x))) := rfl

theorem exec_ldMemVx (x : Reg) (s : State) : exec (.ldMemVx x) s = .next (storeBytes s (indexAddr s) (regsUpTo s x)) := rfl

theorem exec_ldVxMem (x : Reg) (s : State) : exec (.ldVxMem x) s = .next (loadRegs s (indexAddr s) (x.val + 1)) := rfl

theorem exec_ldVxK (x : Reg) (s : State) : exec (.ldVxK x) s = .next (pollKey x s) := rfl

end Sys2Proof.Machine
end

