-- ==== Sys2Proof/Laws/Marks.lean ====
section
/-! SUPPORT. The marks of `RESET_REGS = unwritten` (10_state.md R41), said once: what a read before the first write is, what a
first write takes off, and what a reset leaves. -/

namespace Sys2Proof.Machine

/-! ### Reads -/

theorem readsUnwritten_iff (i : Instr) (s : State) : readsUnwritten i s = true ↔ ReadsBeforeWrite s i := by
  simp [readsUnwritten, ReadsBeforeWrite]

/-- Under the default `RESET_REGS = zero` no read is one before the first write, whatever the marks (10_state.md R41). -/
theorem readsUnwritten_zero (i : Instr) {s : State} (h : s.cfg.resetRegs = .zero) : readsUnwritten i s = false := by
  simp [readsUnwritten, h]

/-- The start of a cycle changes neither the configuration nor a mark. -/
theorem readsUnwritten_beginCycle (i : Instr) (s : State) :
    readsUnwritten i (beginCycle s) = readsUnwritten i s := by
  simp only [readsUnwritten, beginCycle_cfg, beginCycle_unwritten]

/-! ### First writes -/

theorem markWritten_running {i : Instr} {s : State} (h : s.run = .running) :
    markWritten i s = { s with unwritten := writtenMarks i s.unwritten } := by
  simp [markWritten, h]

theorem markWritten_not_running {i : Instr} {s : State} (h : s.run ≠ .running) : markWritten i s = s := by
  unfold markWritten
  split <;> simp_all

/-- The first write touches the marks only. -/
theorem markWritten_eq (i : Instr) (s : State) :
    markWritten i s = { s with unwritten := (markWritten i s).unwritten } := by
  by_cases h : s.run = .running
  · rw [markWritten_running h]
  · rw [markWritten_not_running h]

@[simp] theorem writtenMarks_v (i : Instr) (m : Unwritten) (k : Nat) (hk : k < 16) :
    (writtenMarks i m).v[k] = (m.v[k] && !destV i ⟨k, hk⟩) := by
  simp [writtenMarks]

@[simp] theorem writtenMarks_i (i : Instr) (m : Unwritten) : (writtenMarks i m).i = (m.i && !writesI i) := rfl

@[simp] theorem markWritten_v (i : Instr) (s : State) : (markWritten i s).v = s.v := by
  rw [markWritten_eq]

@[simp] theorem markWritten_i (i : Instr) (s : State) : (markWritten i s).i = s.i := by
  rw [markWritten_eq]

@[simp] theorem markWritten_pc (i : Instr) (s : State) : (markWritten i s).pc = s.pc := by
  rw [markWritten_eq]

@[simp] theorem markWritten_dt (i : Instr) (s : State) : (markWritten i s).dt = s.dt := by
  rw [markWritten_eq]

@[simp] theorem markWritten_st (i : Instr) (s : State) : (markWritten i s).st = s.st := by
  rw [markWritten_eq]

@[simp] theorem markWritten_stack (i : Instr) (s : State) : (markWritten i s).stack = s.stack := by
  rw [markWritten_eq]

@[simp] theorem markWritten_redraw (i : Instr) (s : State) : (markWritten i s).redraw = s.redraw := by
  rw [markWritten_eq]

@[simp] theorem markWritten_lastTickMs (i : Instr) (s : State) : (markWritten i s).lastTickMs = s.lastTickMs := by
  rw [markWritten_eq]

@[simp] theorem markWritten_run (i : Instr) (s : State) : (markWritten i s).run = s.run := by
  rw [markWritten_eq]

@[simp] theorem markWritten_mem (i : Instr) (s : State) : (markWritten i s).mem = s.mem := by
  rw [markWritten_eq]

@[simp] theorem markWritten_cfg (i : Instr) (s : State) : (markWritten i s).cfg = s.cfg := by
  rw [markWritten_eq]

@[simp] theorem markWritten_fetchAddr (i : Instr) (s : State) : (markWritten i s).fetchAddr = s.fetchAddr := by
  rw [markWritten_eq]

@[simp] theorem markWritten_fetchWord (i : Instr) (s : State) : (markWritten i s).fetchWord = s.fetchWord := by
  rw [markWritten_eq]

@[simp] theorem markWritten_renderOut (i : Instr) (s : State) : (markWritten i s).renderOut = s.renderOut := by
  rw [markWritten_eq]

@[simp] theorem markWritten_traceOut (i : Instr) (s : State) : (markWritten i s).traceOut = s.traceOut := by
  rw [markWritten_eq]

@[simp] theorem markWritten_faultOut (i : Instr) (s : State) : (markWritten i s).faultOut = s.faultOut := by
  rw [markWritten_eq]

@[simp] theorem markWritten_env (i : Instr) (s : State) : (markWritten i s).env = s.env := by
  rw [markWritten_eq]


/-! ### Reset -/

@[simp] theorem resetMarks_v (c : ResetRegs) (k : Nat) (hk : k < 16) : (resetMarks c).v[k] = (c == .unwritten) := by
  simp [resetMarks]

@[simp] theorem resetMarks_i (c : ResetRegs) : (resetMarks c).i = (c == .unwritten) := rfl

/-- With no register marked, none becomes marked. -/
theorem writtenMarks_resetMarks_zero (i : Instr) : writtenMarks i (resetMarks .zero) = resetMarks .zero := by
  simp only [writtenMarks, resetMarks, Unwritten.mk.injEq]
  refine ⟨Vector.ext fun k hk => ?_, rfl⟩
  simp

end Sys2Proof.Machine
end

