-- ==== Sys2Proof/Laws/HostControl.lean ====
section
/-! SUPPORT. What each of the host's controls can answer, once, and the memory a reset leaves. -/

namespace Sys2Proof.Machine

/-! ### Reset -/

/-- A reset's memory is in canonical form. -/
theorem wf_resetMemory (cfg : Config) : Memory.wf (resetMemory cfg) := wf_memWriteList _ _ wf_nil

/-- A reset's memory reads `GLYPH_BYTES` at [0, 80) and 0 elsewhere (10_state.md R42, R43). -/
theorem memRead_resetMemory (cfg : Config) {a : Nat} (ha : a < 4096) :
    memRead (resetMemory cfg) a = if h : a < 80 then cfg.glyphBytes[a] else 0 := by
  have hl : cfg.glyphBytes.toList.length = 80 := by simp
  unfold resetMemory
  by_cases h : a < 80
  · have hr := memRead_memWriteList_inside cfg.glyphBytes.toList [] 0 a (by omega) (by omega)
    rw [Nat.zero_add] at hr
    rw [hr, dif_pos h]
    simp
  · rw [memRead_memWriteList_outside _ _ _ _ (by intro k hk; omega), dif_neg h]
    simp [memRead, cellAt, background, Nat.mod_eq_of_lt ha, h]

/-- Under the spec's own glyphs the reset memory lists no cell. -/
theorem resetMemory_specConfig : resetMemory specConfig = [] := by decide +kernel

/-- The reset of the spec's configuration and of the environment at reset is `State.reset`. -/
theorem resetOf_reset : resetOf State.reset = State.reset := by
  show ({ State.reset with mem := resetMemory specConfig } : State) = State.reset
  rw [resetMemory_specConfig]
  rfl

/-! ### The controls -/

theorem hostStop_ok {s t : State} (h : hostStop s = .ok t) : s.run = .running ∧ t = { s with run := .stopped } := by
  unfold hostStop at h
  split at h
  · rename_i hr
    cases h
    exact ⟨hr, rfl⟩
  all_goals cases h

theorem hostReset_ok {s t : State} (h : hostReset s = .ok t) : (∀ x, s.run ≠ .waitingKey x) ∧ t = resetOf s := by
  unfold hostReset at h
  split at h <;> cases h <;> simp_all

theorem hostReset_of_not_waiting {s : State} (h : ∀ x, s.run ≠ .waitingKey x) : hostReset s = .ok (resetOf s) := by
  unfold hostReset
  split <;> simp_all

/-- A ROM that fits is stored from 0x200 on. -/
theorem loadRom_running {s : State} {bytes : List Byte} (hr : s.run = .running) (hl : bytes.length ≤ 3584) :
    loadRom (some bytes) s = .ok (storeBytes s 0x200 bytes) := by
  have hm : bytes.length ≤ maxRom := hl
  simp [loadRom, placeRom, hr, hm]

theorem loadRom_ok {s t : State} {rom : Option (List Byte)} (h : loadRom rom s = .ok t) :
    s.run = .running ∧ ∃ bytes, rom = some bytes ∧ bytes.length ≤ 3584 ∧ t = storeBytes s 0x200 bytes := by
  unfold loadRom at h
  split at h
  · rename_i hr
    cases rom with
    | none => cases h
    | some bytes =>
      simp only [placeRom] at h
      split at h
      · rename_i hl
        cases h
        exact ⟨hr, bytes, rfl, hl, rfl⟩
      · cases h
  all_goals cases h

/-- A reload is a reset, and then a load into the reset block (70_reset_and_hazards.md R265). -/
theorem hostReload_ok {s t : State} {rom : Option (List Byte)} (h : hostReload rom s = .ok t) :
    (∀ x, s.run ≠ .waitingKey x) ∧
      ∃ bytes, rom = some bytes ∧ bytes.length ≤ 3584 ∧ t = storeBytes (resetOf s) 0x200 bytes := by
  unfold hostReload at h
  cases hu : hostReset s with
  | error e => rw [hu] at h; cases h
  | ok u =>
    rw [hu] at h
    obtain ⟨hw, rfl⟩ := hostReset_ok hu
    exact ⟨hw, (loadRom_ok h).2⟩

theorem hostReload_of_not_waiting {s : State} {bytes : List Byte} (h : ∀ x, s.run ≠ .waitingKey x)
    (hl : bytes.length ≤ 3584) : hostReload (some bytes) s = .ok (storeBytes (resetOf s) 0x200 bytes) := by
  rw [hostReload, hostReset_of_not_waiting h]
  exact loadRom_running rfl hl

end Sys2Proof.Machine
end

