-- ==== Sys2Proof/Laws/Keeps.lean ====
section
/-! SUPPORT. What every instruction keeps of the parts of the state that the invariant between steps is about, said once
(`exec_keeps`): canonical memory, PC in range, the stack bounded, the cycle's latches, the configuration, the clock; and how an
instruction can leave the run state. -/

namespace Sys2Proof.Machine
/-- What every instruction keeps, from a Running state whose memory is canonical, whose PC is in range and whose stack is
bounded; and how an instruction can leave the run state. -/
structure ExecKeeps (i : Instr) (s t : State) : Prop where
  memory : Memory.wf t.mem
  pcInRange : t.pc.toNat < 4096
  stackBounded : ∀ d, t.cfg.stackDepth = some d → t.stack.length ≤ d
  cfg : t.cfg = s.cfg
  lastTickMs : t.lastTickMs = s.lastTickMs
  nowMs : t.env.nowMs = s.env.nowMs
  unwritten : t.unwritten = s.unwritten
  fetchWord : t.fetchWord = s.fetchWord
  fetchAddr : t.fetchAddr = s.fetchAddr
  run : t.run = .running ∨ (t.redraw = s.redraw ∧ t.mem = s.mem ∧ t.pc = s.pc ∧
    ((∃ x, i = .ldVxK x ∧ t.run = .waitingKey x) ∨ ∃ k, t.run = .faulted ⟨k, s.fetchWord, s.fetchAddr⟩))

variable {s t : State}

theorem nextPc_lt (a : Word) : (nextPc a).toNat < 4096 := by rw [nextPc_toNat]; omega

theorem setV_keeps {i : Instr} (hr : s.run = .running) (hm : Memory.wf s.mem) (hp : s.pc.toNat < 4096)
    (hs : ∀ d, s.cfg.stackDepth = some d → s.stack.length ≤ d) (x : Reg) (b : Byte) : ExecKeeps i s (setV s x b) :=
  ⟨hm, hp, hs, rfl, rfl, rfl, rfl, rfl, rfl, .inl hr⟩

theorem setVFlag_keeps {i : Instr} (hr : s.run = .running) (hm : Memory.wf s.mem) (hp : s.pc.toNat < 4096)
    (hs : ∀ d, s.cfg.stackDepth = some d → s.stack.length ≤ d) (x : Reg) (b f : Byte) :
    ExecKeeps i s (setVFlag s x b f) :=
  ⟨hm, hp, hs, rfl, rfl, rfl, rfl, rfl, rfl, .inl hr⟩

theorem setI_keeps {i : Instr} (hr : s.run = .running) (hm : Memory.wf s.mem) (hp : s.pc.toNat < 4096)
    (hs : ∀ d, s.cfg.stackDepth = some d → s.stack.length ≤ d) (w : Word) : ExecKeeps i s (setI s w) :=
  ⟨hm, hp, hs, rfl, rfl, rfl, rfl, rfl, rfl, .inl hr⟩

theorem setPc_keeps {i : Instr} (hr : s.run = .running) (hm : Memory.wf s.mem) (w : Word) (hp : w.toNat < 4096)
    (hs : ∀ d, s.cfg.stackDepth = some d → s.stack.length ≤ d) : ExecKeeps i s (setPc s w) :=
  ⟨hm, hp, hs, rfl, rfl, rfl, rfl, rfl, rfl, .inl hr⟩

theorem skipIf_keeps {i : Instr} (hr : s.run = .running) (hm : Memory.wf s.mem) (hp : s.pc.toNat < 4096)
    (hs : ∀ d, s.cfg.stackDepth = some d → s.stack.length ≤ d) (c : Bool) (e : Env)
    (he : e.nowMs = s.env.nowMs) : ExecKeeps i s { skipIf c s with env := e } := by
  rw [skipIf_eq]
  refine ⟨hm, ?_, hs, rfl, rfl, he, rfl, rfl, rfl, .inl hr⟩
  cases c
  · exact hp
  · exact nextPc_lt _

theorem skipIf_env_keeps {i : Instr} (hr : s.run = .running) (hm : Memory.wf s.mem) (hp : s.pc.toNat < 4096)
    (hs : ∀ d, s.cfg.stackDepth = some d → s.stack.length ≤ d) (c : Bool) : ExecKeeps i s (skipIf c s) := by
  have h := skipIf_keeps (i := i) hr hm hp hs c s.env rfl
  cases c <;> exact h

theorem storeBytes_keeps {i : Instr} (hr : s.run = .running) (hm : Memory.wf s.mem) (hp : s.pc.toNat < 4096)
    (hs : ∀ d, s.cfg.stackDepth = some d → s.stack.length ≤ d) (a : Nat) (bs : List Byte) :
    ExecKeeps i s (storeBytes s a bs) :=
  ⟨wf_memWriteList _ _ hm, hp, hs, rfl, rfl, rfl, rfl, rfl, rfl, .inl hr⟩

theorem loadRegs_keeps {i : Instr} (hr : s.run = .running) (hm : Memory.wf s.mem) (hp : s.pc.toNat < 4096)
    (hs : ∀ d, s.cfg.stackDepth = some d → s.stack.length ≤ d) (a n : Nat) : ExecKeeps i s (loadRegs s a n) := by
  constructor <;> simp [hr, hp]
  · exact hm
  · exact hs

theorem keeps_of_eq {i : Instr} {u : State} (e : exec i s = .next u) (k : ExecKeeps i s u) (h : exec i s = .next t) :
    ExecKeeps i s t := by
  rw [e] at h
  injection h with h
  exact h ▸ k

/-- What an instruction can do to the parts of the state that the invariant between steps is about. -/
theorem exec_keeps {i : Instr} (hr : s.run = .running) (hm : Memory.wf s.mem) (hp : s.pc.toNat < 4096)
    (hs : ∀ d, s.cfg.stackDepth = some d → s.stack.length ≤ d) (h : exec i s = .next t) : ExecKeeps i s t := by
  cases i with
  | call nnn =>
    refine keeps_of_eq (exec_call nnn s) ?_ h
    rcases callTo_cases (addrOperand nnn) s with ⟨-, e⟩ | ⟨hf, e⟩ <;> rw [e]
    · exact ⟨hm, hp, hs, rfl, rfl, rfl, rfl, rfl, rfl, .inr ⟨rfl, rfl, rfl, .inr ⟨_, rfl⟩⟩⟩
    · refine ⟨hm, (addrOperand_toNat nnn).trans_lt nnn.isLt, ?_, rfl, rfl, rfl, rfl, rfl, rfl, .inl hr⟩
      intro d hd
      have hle := hs d hd
      have hne : ¬ s.cfg.stackDepth = some s.stack.length := by rw [← stackFull_iff, hf]; simp
      have hne' : s.stack.length ≠ d := fun he => hne (by rw [he]; exact hd)
      simp only [List.length_append, List.length_singleton]
      omega
  | ret =>
    refine keeps_of_eq (exec_ret s) ?_ h
    rcases returnFrom_cases s with ⟨-, e⟩ | ⟨l, a, hf, e⟩ <;> rw [e]
    · exact ⟨hm, hp, hs, rfl, rfl, rfl, rfl, rfl, rfl, .inr ⟨rfl, rfl, rfl, .inr ⟨_, rfl⟩⟩⟩
    · refine ⟨hm, (addrOperand_toNat a).trans_lt a.isLt, ?_, rfl, rfl, rfl, rfl, rfl, rfl, .inl hr⟩
      intro d hd
      have hle := hs d hd
      rw [hf, List.length_append] at hle
      exact Nat.le_of_add_right_le hle
  | ldVxK x =>
    refine keeps_of_eq (exec_ldVxK x s) ?_ h
    rcases pollKey_cases x s with ⟨k, -, e⟩ | ⟨-, e⟩ <;> rw [e]
    · exact ⟨hm, hp, hs, rfl, rfl, afterKey_nowMs _, rfl, rfl, rfl, .inl rfl⟩
    · exact ⟨hm, hp, hs, rfl, rfl, afterKey_nowMs _, rfl, rfl, rfl, .inr ⟨rfl, rfl, rfl, .inl ⟨x, rfl, rfl⟩⟩⟩
  | cls => exact keeps_of_eq (exec_cls s) ⟨wf_clearFramebuffer hm, hp, hs, rfl, rfl, rfl, rfl, rfl, rfl, .inl hr⟩ h
  | drw x y n =>
    exact keeps_of_eq (exec_drw x y n s) ⟨wf_drawSprite _ _ _ _ hm, hp, hs, rfl, rfl, rfl, rfl, rfl, rfl, .inl hr⟩ h
  | rnd x kk => exact keeps_of_eq (exec_rnd x kk s) ⟨hm, hp, hs, rfl, rfl, afterRand_nowMs _, rfl, rfl, rfl, .inl hr⟩ h
  | ldVxMem x => exact keeps_of_eq (exec_ldVxMem x s) (loadRegs_keeps hr hm hp hs _ _) h
  | ldDtVx x => exact keeps_of_eq (exec_ldDtVx x s) ⟨hm, hp, hs, rfl, rfl, rfl, rfl, rfl, rfl, .inl hr⟩ h
  | ldStVx x => exact keeps_of_eq (exec_ldStVx x s) ⟨hm, hp, hs, rfl, rfl, rfl, rfl, rfl, rfl, .inl hr⟩ h
  | sys nnn => exact keeps_of_eq (exec_sys nnn s) ⟨hm, hp, hs, rfl, rfl, rfl, rfl, rfl, rfl, .inl hr⟩ h
  | ldBVx x => exact keeps_of_eq (exec_ldBVx x s) (storeBytes_keeps hr hm hp hs _ _) h
  | ldMemVx x => exact keeps_of_eq (exec_ldMemVx x s) (storeBytes_keeps hr hm hp hs _ _) h
  | jp nnn => exact keeps_of_eq (exec_jp nnn s) (setPc_keeps hr hm _ ((addrOperand_toNat nnn).trans_lt nnn.isLt) hs) h
  | jpV0 nnn =>
    exact keeps_of_eq (exec_jpV0 nnn s) (setPc_keeps hr hm _ ((jumpV0Target_toNat s nnn).trans_lt (Nat.mod_lt _ (by decide))) hs) h
  | seVxKk x kk => exact keeps_of_eq (exec_seVxKk x kk s) (skipIf_env_keeps hr hm hp hs _) h
  | sneVxKk x kk => exact keeps_of_eq (exec_sneVxKk x kk s) (skipIf_env_keeps hr hm hp hs _) h
  | seVxVy x y => exact keeps_of_eq (exec_seVxVy x y s) (skipIf_env_keeps hr hm hp hs _) h
  | sneVxVy x y => exact keeps_of_eq (exec_sneVxVy x y s) (skipIf_env_keeps hr hm hp hs _) h
  | skp x => exact keeps_of_eq (exec_skp x s) (skipIf_keeps hr hm hp hs _ _ (afterKey_nowMs _)) h
  | sknp x => exact keeps_of_eq (exec_sknp x s) (skipIf_keeps hr hm hp hs _ _ (afterKey_nowMs _)) h
  | ldINnn nnn => exact keeps_of_eq (exec_ldINnn nnn s) (setI_keeps hr hm hp hs _) h
  | addIVx x => exact keeps_of_eq (exec_addIVx x s) (setI_keeps hr hm hp hs _) h
  | ldFVx x => exact keeps_of_eq (exec_ldFVx x s) (setI_keeps hr hm hp hs _) h
  | addVxVy x y => exact keeps_of_eq (exec_addVxVy x y s) (setVFlag_keeps hr hm hp hs _ _ _) h
  | subVxVy x y => exact keeps_of_eq (exec_subVxVy x y s) (setVFlag_keeps hr hm hp hs _ _ _) h
  | subnVxVy x y => exact keeps_of_eq (exec_subnVxVy x y s) (setVFlag_keeps hr hm hp hs _ _ _) h
  | shrVxVy x y => exact keeps_of_eq (exec_shrVxVy x y s) (setVFlag_keeps hr hm hp hs _ _ _) h
  | shlVxVy x y => exact keeps_of_eq (exec_shlVxVy x y s) (setVFlag_keeps hr hm hp hs _ _ _) h
  | shrVx x => exact keeps_of_eq (exec_shrVx x s) (setVFlag_keeps hr hm hp hs _ _ _) h
  | shlVx x => exact keeps_of_eq (exec_shlVx x s) (setVFlag_keeps hr hm hp hs _ _ _) h
  | ldVxKk x kk => exact keeps_of_eq (exec_ldVxKk x kk s) (setV_keeps hr hm hp hs _ _) h
  | addVxKk x kk => exact keeps_of_eq (exec_addVxKk x kk s) (setV_keeps hr hm hp hs _ _) h
  | ldVxVy x y => exact keeps_of_eq (exec_ldVxVy x y s) (setV_keeps hr hm hp hs _ _) h
  | orVxVy x y => exact keeps_of_eq (exec_orVxVy x y s) (setV_keeps hr hm hp hs _ _) h
  | andVxVy x y => exact keeps_of_eq (exec_andVxVy x y s) (setV_keeps hr hm hp hs _ _) h
  | xorVxVy x y => exact keeps_of_eq (exec_xorVxVy x y s) (setV_keeps hr hm hp hs _ _) h
  | ldVxDt x => exact keeps_of_eq (exec_ldVxDt x s) (setV_keeps hr hm hp hs _ _) h

end Sys2Proof.Machine
end

