-- ==== Sys2Proof/Laws/PerInstr.lean ====
section
/-! SUPPORT. The family `MatchesRow`: the encoding of every instruction has the fixed bits of its row of
spec/opcode_table.json ("match" under "mask"). -/

namespace Sys2Proof.Laws.MatchesRow

/-- The row's "mask": the bits that are fixed. -/
def rowMask : Instr → Word
  | .sys _ | .jp _ | .call _ | .seVxKk _ _ | .sneVxKk _ _ | .seVxVy _ _ | .ldVxKk _ _ | .addVxKk _ _
  | .sneVxVy _ _ | .ldINnn _ | .jpV0 _ | .rnd _ _ | .drw _ _ _ => 0xF000
  | .ldVxVy _ _ | .orVxVy _ _ | .andVxVy _ _ | .xorVxVy _ _ | .addVxVy _ _ | .subVxVy _ _ | .shrVxVy _ _
  | .subnVxVy _ _ | .shlVxVy _ _ => 0xF00F
  | .cls | .ret | .skp _ | .sknp _ | .ldVxDt _ | .ldVxK _ | .ldDtVx _ | .ldStVx _ | .addIVx _ | .ldFVx _
  | .ldBVx _ | .ldMemVx _ | .ldVxMem _ | .shrVx _ | .shlVx _ => 0xF0FF

/-- The row's "match": the values of the fixed bits. -/
def rowMatch : Instr → Word
  | .sys _ => 0x0000 | .cls => 0x00E0 | .ret => 0x00EE | .jp _ => 0x1000 | .call _ => 0x2000
  | .seVxKk _ _ => 0x3000 | .sneVxKk _ _ => 0x4000 | .seVxVy _ _ => 0x5000 | .ldVxKk _ _ => 0x6000
  | .addVxKk _ _ => 0x7000 | .ldVxVy _ _ => 0x8000 | .orVxVy _ _ => 0x8001 | .andVxVy _ _ => 0x8002
  | .xorVxVy _ _ => 0x8003 | .addVxVy _ _ => 0x8004 | .subVxVy _ _ => 0x8005 | .shrVxVy _ _ => 0x8006
  | .subnVxVy _ _ => 0x8007 | .shlVxVy _ _ => 0x800E | .sneVxVy _ _ => 0x9000 | .ldINnn _ => 0xA000
  | .jpV0 _ => 0xB000 | .rnd _ _ => 0xC000 | .drw _ _ _ => 0xD000 | .skp _ => 0xE09E | .sknp _ => 0xE0A1
  | .ldVxDt _ => 0xF007 | .ldVxK _ => 0xF00A | .ldDtVx _ => 0xF015 | .ldStVx _ => 0xF018
  | .addIVx _ => 0xF01E | .ldFVx _ => 0xF029 | .ldBVx _ => 0xF033 | .ldMemVx _ => 0xF055
  | .ldVxMem _ => 0xF065 | .shrVx _ => 0x8006 | .shlVx _ => 0x800E

/-- The encoding agrees with the row on every fixed bit. -/
def Statement (i : Instr) : Prop := encode i &&& rowMask i = rowMatch i

theorem formatA_fixed (op : BitVec 4) (nnn : Addr) : formatA op nnn &&& 0xF000 = formatA op 0 := by
  apply BitVec.eq_of_getLsbD_eq
  intro k hk
  simp only [formatA, BitVec.getLsbD_and, BitVec.getLsbD_append]
  interval_cases k <;> simp

theorem formatXK_fixed (op : BitVec 4) (x : Reg) (kk : Byte) : formatXK op x kk &&& 0xF000 = formatXK op 0 0 := by
  apply BitVec.eq_of_getLsbD_eq
  intro k hk
  simp only [formatXK, nibble, BitVec.getLsbD_and, BitVec.getLsbD_append]
  interval_cases k <;> simp

theorem formatXS_fixed (op : BitVec 4) (x : Reg) (kk : Byte) : formatXK op x kk &&& 0xF0FF = formatXK op 0 kk := by
  apply BitVec.eq_of_getLsbD_eq
  intro k hk
  simp only [formatXK, nibble, BitVec.getLsbD_and, BitVec.getLsbD_append]
  interval_cases k <;> simp

theorem formatXY_fixed (op : BitVec 4) (x y : Reg) (n : Fin 16) :
    formatXYN op x y n &&& 0xF000 = formatXYN op 0 0 0 := by
  apply BitVec.eq_of_getLsbD_eq
  intro k hk
  simp only [formatXYN, nibble, BitVec.getLsbD_and, BitVec.getLsbD_append]
  interval_cases k <;> simp

theorem formatXYS_fixed (op : BitVec 4) (x y : Reg) (n : Fin 16) :
    formatXYN op x y n &&& 0xF00F = formatXYN op 0 0 n := by
  apply BitVec.eq_of_getLsbD_eq
  intro k hk
  simp only [formatXYN, nibble, BitVec.getLsbD_and, BitVec.getLsbD_append]
  interval_cases k <;> simp

theorem formatAlias_fixed (op : BitVec 4) (x : Reg) (n : Fin 16) :
    formatXYN op x 0 n &&& 0xF0FF = formatXYN op 0 0 n := by
  apply BitVec.eq_of_getLsbD_eq
  intro k hk
  simp only [formatXYN, nibble, BitVec.getLsbD_and, BitVec.getLsbD_append]
  interval_cases k <;> simp

theorem sys (nnn : Addr) : Statement (.sys nnn) := formatA_fixed 0x0 nnn
theorem cls : Statement .cls := formatXS_fixed 0x0 0 0xE0
theorem ret : Statement .ret := formatXS_fixed 0x0 0 0xEE
theorem jp (nnn : Addr) : Statement (.jp nnn) := formatA_fixed 0x1 nnn
theorem call (nnn : Addr) : Statement (.call nnn) := formatA_fixed 0x2 nnn
theorem seVxKk (x : Reg) (kk : Byte) : Statement (.seVxKk x kk) := formatXK_fixed 0x3 x kk
theorem sneVxKk (x : Reg) (kk : Byte) : Statement (.sneVxKk x kk) := formatXK_fixed 0x4 x kk
theorem seVxVy (x y : Reg) : Statement (.seVxVy x y) := formatXY_fixed 0x5 x y 0x0
theorem ldVxKk (x : Reg) (kk : Byte) : Statement (.ldVxKk x kk) := formatXK_fixed 0x6 x kk
theorem addVxKk (x : Reg) (kk : Byte) : Statement (.addVxKk x kk) := formatXK_fixed 0x7 x kk
theorem ldVxVy (x y : Reg) : Statement (.ldVxVy x y) := formatXYS_fixed 0x8 x y 0x0
theorem orVxVy (x y : Reg) : Statement (.orVxVy x y) := formatXYS_fixed 0x8 x y 0x1
theorem andVxVy (x y : Reg) : Statement (.andVxVy x y) := formatXYS_fixed 0x8 x y 0x2
theorem xorVxVy (x y : Reg) : Statement (.xorVxVy x y) := formatXYS_fixed 0x8 x y 0x3
theorem addVxVy (x y : Reg) : Statement (.addVxVy x y) := formatXYS_fixed 0x8 x y 0x4
theorem subVxVy (x y : Reg) : Statement (.subVxVy x y) := formatXYS_fixed 0x8 x y 0x5
theorem shrVxVy (x y : Reg) : Statement (.shrVxVy x y) := formatXYS_fixed 0x8 x y 0x6
theorem subnVxVy (x y : Reg) : Statement (.subnVxVy x y) := formatXYS_fixed 0x8 x y 0x7
theorem shlVxVy (x y : Reg) : Statement (.shlVxVy x y) := formatXYS_fixed 0x8 x y 0xE
theorem sneVxVy (x y : Reg) : Statement (.sneVxVy x y) := formatXY_fixed 0x9 x y 0x0
theorem ldINnn (nnn : Addr) : Statement (.ldINnn nnn) := formatA_fixed 0xA nnn
theorem jpV0 (nnn : Addr) : Statement (.jpV0 nnn) := formatA_fixed 0xB nnn
theorem rnd (x : Reg) (kk : Byte) : Statement (.rnd x kk) := formatXK_fixed 0xC x kk
theorem drw (x y : Reg) (n : Fin 16) : Statement (.drw x y n) := formatXY_fixed 0xD x y n
theorem skp (x : Reg) : Statement (.skp x) := formatXS_fixed 0xE x 0x9E
theorem sknp (x : Reg) : Statement (.sknp x) := formatXS_fixed 0xE x 0xA1
theorem ldVxDt (x : Reg) : Statement (.ldVxDt x) := formatXS_fixed 0xF x 0x07
theorem ldVxK (x : Reg) : Statement (.ldVxK x) := formatXS_fixed 0xF x 0x0A
theorem ldDtVx (x : Reg) : Statement (.ldDtVx x) := formatXS_fixed 0xF x 0x15
theorem ldStVx (x : Reg) : Statement (.ldStVx x) := formatXS_fixed 0xF x 0x18
theorem addIVx (x : Reg) : Statement (.addIVx x) := formatXS_fixed 0xF x 0x1E
theorem ldFVx (x : Reg) : Statement (.ldFVx x) := formatXS_fixed 0xF x 0x29
theorem ldBVx (x : Reg) : Statement (.ldBVx x) := formatXS_fixed 0xF x 0x33
theorem ldMemVx (x : Reg) : Statement (.ldMemVx x) := formatXS_fixed 0xF x 0x55
theorem ldVxMem (x : Reg) : Statement (.ldVxMem x) := formatXS_fixed 0xF x 0x65
theorem shrVx (x : Reg) : Statement (.shrVx x) := formatAlias_fixed 0x8 x 0x6
theorem shlVx (x : Reg) : Statement (.shlVx x) := formatAlias_fixed 0x8 x 0xE

end Sys2Proof.Laws.MatchesRow
end

