-- ==== Sys2Proof/Laws/Sprite.lean ====
section
/-! SUPPORT. One row of a sprite (43_index_sprite.md R161): which pixels it inverts and when it collides, said once
(`drawRow_spec`); DRW is its rows one after the other (`drawSprite_succ`). -/

namespace Sys2Proof.Machine

/-- The first `k` columns of a sprite row cover the pixel. -/
def columnsCover (cx cy r : Nat) (row : Byte) (k px py : Nat) : Bool :=
  py == (cy + r) % 32 && decide ((px + 64 - cx % 64) % 64 < k) && row.getLsbD (7 - (px + 64 - cx % 64) % 64)

theorem columnsCover_eight (cx cy r : Nat) (row : Byte) (px py : Nat) :
    columnsCover cx cy r row 8 px py = rowCovers cx cy r row px py := rfl

/-- One more column. -/
theorem columnsCover_succ (cx cy r : Nat) (row : Byte) {k px py : Nat} (hk : k < 8) (hx : px < 64) :
    columnsCover cx cy r row (k + 1) px py =
      (columnsCover cx cy r row k px py || (row.getLsbD (7 - k) && px == (cx + k) % 64 && py == (cy + r) % 32)) := by
  have hd : (px = (cx + k) % 64) ↔ (px + 64 - cx % 64) % 64 = k := by omega
  unfold columnsCover
  by_cases h1 : (px + 64 - cx % 64) % 64 = k
  · have h2 : (px == (cx + k) % 64) = true := beq_iff_eq.2 (hd.2 h1)
    rw [h1, h2]
    simp [Bool.and_comm]
  · have h2 : (px == (cx + k) % 64) = false := beq_eq_false_iff_ne.2 fun h => h1 (hd.1 h)
    have h3 : decide ((px + 64 - cx % 64) % 64 < k + 1) = decide ((px + 64 - cx % 64) % 64 < k) := by
      rw [decide_eq_decide]
      omega
    rw [h2, h3]
    simp

theorem columnsCover_self (cx cy r : Nat) (row : Byte) {k : Nat} (hk : k < 8) :
    columnsCover cx cy r row k ((cx + k) % 64) ((cy + r) % 32) = false := by
  unfold columnsCover
  have : ((cx + k) % 64 + 64 - cx % 64) % 64 = k := by omega
  simp [this]

/-- The columns of one sprite row: the pixels under its 1 bits are inverted, and the hit is recorded exactly if one of them
was lit. -/
theorem drawColumns_spec (cx cy r : Nat) (row : Byte) (b : Blit) (k : Nat) (hk : k ≤ 8) :
    let d := (List.range k).foldl (drawPixel cx cy r row) b
    (∀ px < 64, ∀ py < 32, pixel d.mem px py = (pixel b.mem px py != columnsCover cx cy r row k px py)) ∧
    (d.hit = true ↔ b.hit = true ∨
      ∃ px < 64, ∃ py < 32, columnsCover cx cy r row k px py = true ∧ pixel b.mem px py = true) := by
  induction k with
  | zero => simp [columnsCover]
  | succ k ih =>
    obtain ⟨ihp, ihh⟩ := ih (by omega)
    have hk8 : k < 8 := by omega
    rw [List.range_succ, List.foldl_append]
    simp only [List.foldl_cons, List.foldl_nil]
    generalize (List.range k).foldl (drawPixel cx cy r row) b = d at ihp ihh
    have hcx : (cx + k) % 64 < 64 := Nat.mod_lt _ (by decide)
    have hcy : (cy + r) % 32 < 32 := Nat.mod_lt _ (by decide)
    rcases drawPixel_cases cx cy r row d k with ⟨hb, e⟩ | ⟨hb, em, eh⟩
    · have hc : ∀ px < 64, ∀ py, columnsCover cx cy r row (k + 1) px py = columnsCover cx cy r row k px py := by
        intro px hx py
        rw [columnsCover_succ cx cy r row hk8 hx, hb]
        simp
      rw [e]
      refine ⟨fun px hx py hy => by rw [ihp px hx py hy, hc px hx], ihh.trans (or_congr_right ?_)⟩
      constructor
      · rintro ⟨px, hx, py, hy, h1, h2⟩
        exact ⟨px, hx, py, hy, by rw [hc px hx]; exact h1, h2⟩
      · rintro ⟨px, hx, py, hy, h1, h2⟩
        exact ⟨px, hx, py, hy, by rw [← hc px hx]; exact h1, h2⟩
    · have hself := columnsCover_self cx cy r row hk8
      have hold : pixel d.mem ((cx + k) % 64) ((cy + r) % 32) = pixel b.mem ((cx + k) % 64) ((cy + r) % 32) := by
        rw [ihp _ hcx _ hcy, hself]
        simp
      rw [em, eh, hold]
      refine ⟨fun px hx py hy => ?_, ?_⟩
      · rw [pixel_togglePixel _ hcx hcy hx hy, ihp px hx py hy, columnsCover_succ cx cy r row hk8 hx, hb]
        by_cases hp : px = (cx + k) % 64 ∧ py = (cy + r) % 32
        · obtain ⟨rfl, rfl⟩ := hp
          rw [hself]
          simp
        · have hq : (true && px == (cx + k) % 64 && py == (cy + r) % 32) = false := by
            rw [Bool.true_and, Bool.and_eq_false_iff, beq_eq_false_iff_ne, beq_eq_false_iff_ne]
            exact not_and_or.1 hp
          rw [hq, decide_eq_false hp]
          simp
      · rw [Bool.or_eq_true, ihh]
        constructor
        · rintro ((h | ⟨px, hx, py, hy, h1, h2⟩) | h)
          · exact .inl h
          · exact .inr ⟨px, hx, py, hy, by rw [columnsCover_succ cx cy r row hk8 hx, h1]; rfl, h2⟩
          · exact .inr ⟨_, hcx, _, hcy, by rw [columnsCover_succ cx cy r row hk8 hcx, hb]; simp, h⟩
        · rintro (h | ⟨px, hx, py, hy, h1, h2⟩)
          · exact .inl (.inl h)
          · rw [columnsCover_succ cx cy r row hk8 hx, Bool.or_eq_true] at h1
            rcases h1 with h1 | h1
            · exact .inl (.inr ⟨px, hx, py, hy, h1, h2⟩)
            · simp only [Bool.and_eq_true, beq_iff_eq] at h1
              obtain ⟨⟨-, rfl⟩, rfl⟩ := h1
              exact .inr h2

/-- One row: the pixels it covers are inverted, and the hit is recorded exactly if one of them was lit. -/
theorem drawRow_spec (cx cy r : Nat) (row : Byte) (b : Blit) :
    (∀ px < 64, ∀ py < 32, pixel (drawRow cx cy r row b).mem px py = (pixel b.mem px py != rowCovers cx cy r row px py)) ∧
    ((drawRow cx cy r row b).hit = true ↔ b.hit = true ∨
      ∃ px < 64, ∃ py < 32, rowCovers cx cy r row px py = true ∧ pixel b.mem px py = true) :=
  drawColumns_spec cx cy r row b 8 (Nat.le_refl 8)

/-- One row changes no byte outside the framebuffer. -/
theorem memRead_drawRow_outside (cx cy r : Nat) (row : Byte) (b : Blit) {a : Nat} (ha : a % 4096 < 0xF00) :
    memRead (drawRow cx cy r row b).mem a = memRead b.mem a := by
  unfold drawRow
  induction List.range 8 generalizing b with
  | nil => rfl
  | cons c cs ih =>
    rw [List.foldl_cons, ih]
    rcases drawPixel_cases cx cy r row b c with ⟨-, e⟩ | ⟨-, e, -⟩
    · rw [e]
    · rw [e, memRead_togglePixel_outside _ (Nat.mod_lt _ (by decide)) (Nat.mod_lt _ (by decide)) ha]

end Sys2Proof.Machine
end

