-- ==== Sys2Proof/Laws/Step.lean ====
section
/-! SUPPORT. What one step can do, said once: every later fact about a step starts from `step_next_cases`. -/

namespace Sys2Proof.Machine

theorem executeAndFinish_next {i : Instr} {s t : State} (hu : readsUnwritten i s = false) (h : exec i s = .next t) :
    executeAndFinish i s = .next (finishCycle (markWritten i t)) := by
  simp [executeAndFinish, hu, h]

theorem executeAndFinish_unwritten {i : Instr} {s : State} (hu : readsUnwritten i s = true) :
    executeAndFinish i s = .fault (.unwrittenRead s.fetchWord s.fetchAddr) := by
  simp [executeAndFinish, hu]

theorem step_faulted {s : State} {r : FaultRecord} (h : s.run = .faulted r) : step s = .fault (.halted r) := by
  simp [step, h]

theorem step_stopped {s : State} (h : s.run = .stopped) : step s = .fault .stopped := by
  simp [step, h]

theorem step_waiting {s : State} {x : Reg} (h : s.run = .waitingKey x) :
    step s = .next (finishCycle (markWritten (.ldVxK x) (pollKey x (clearPorts s)))) := by
  simp [step, h]

theorem step_running {s : State} (h : s.run = .running) : step s = decodeAndExecute (beginCycle s) := by
  simp [step, h]

/-- A step that goes on is a completed dispatch, an invalid word's fault, or a further key poll. -/
theorem step_next_cases {s t : State} (h : step s = .next t) :
    (∃ i u, s.run = .running ∧ decode s.cfg (memFetch s.mem s.pc.toNat) = .ok i ∧
      readsUnwritten i s = false ∧ exec i (beginCycle s) = .next u ∧ t = finishCycle (markWritten i u)) ∨
    (s.run = .running ∧ decode s.cfg (memFetch s.mem s.pc.toNat) = .error .invalid ∧
      t = raiseFault .runtimeDispatchError (beginCycle s)) ∨
    ∃ x, s.run = .waitingKey x ∧ t = finishCycle (markWritten (.ldVxK x) (pollKey x (clearPorts s))) := by
  cases hr : s.run with
  | faulted r => rw [step_faulted hr] at h; cases h
  | stopped => rw [step_stopped hr] at h; cases h
  | waitingKey x =>
    rw [step_waiting hr] at h
    cases h
    exact .inr (.inr ⟨x, rfl, rfl⟩)
  | running =>
    rw [step_running hr, decodeAndExecute, beginCycle_cfg, beginCycle_fetchWord] at h
    cases hd : decode s.cfg (memFetch s.mem s.pc.toNat) with
    | error r =>
      rw [hd] at h
      cases r with
      | invalid => cases h; exact .inr (.inl ⟨rfl, rfl, rfl⟩)
      | faithfulKeySkip => cases h
    | ok i =>
      rw [hd] at h
      simp only [executeAndFinish, readsUnwritten_beginCycle] at h
      cases hu : readsUnwritten i s with
      | true => simp [hu] at h
      | false =>
      simp only [hu, Bool.false_eq_true, if_false] at h
      cases he : exec i (beginCycle s) with
      | next u =>
        rw [he] at h
        cases h
        exact .inl ⟨i, u, rfl, rfl, hu, he, rfl⟩
      | fault f => rw [he] at h; cases h
      | refused r => rw [he] at h; cases h

end Sys2Proof.Machine
end

