-- ==== Sys2Proof/Tests/Slice0.lean ====
section
/-! SUPPORT. The model's own tests. Expected results are those of 95_test_vectors.md (its numbers, such as A8, stand beside
each test) and of the encodings of 30_encoding.md; a `witness_` theorem shows a state and operands that meet the hypotheses
of the statement it is named after. -/

namespace Sys2Proof.Tests

open Sys2Proof.Machine

/-! ### Scenes: small running blocks -/

/-- The block in its run, PC at 0x200, the clock at 0 and the last tick at 0, with one word at 0x200 and some V registers
set. The next poll answers no key, the next random byte is A7, and no time passes before the next clock reading. -/
def scene (w : Word) (v : List (Reg × Byte)) : State :=
  v.foldl (fun s p => setV s p.1 p.2)
    { State.reset with
      mem := memPlaceWord [] 0x200 w
      lastTickMs := some 0
      env := ⟨[none], [0xA7], [0], 0, 0⟩ }

/-- A scene with I and some bytes at I. -/
def sceneI (w : Word) (v : List (Reg × Byte)) (i : Word) (bytes : List Byte) : State :=
  setI (storeBytes (scene w v) i.toNat bytes) i

/-- A scene whose next key polls and whose waits before the next clock readings are given. -/
def sceneIn (w : Word) (v : List (Reg × Byte)) (keys : List (Option Key)) (waits : List Nat) : State :=
  { scene w v with env := ⟨keys, [], waits, 0, 0⟩ }

/-- The state after one step that goes on. -/
def after (s : State) : State :=
  match step s with
  | .next t => t
  | .fault _ | .refused _ => s

/-- Whether a step goes on. -/
def goesOn (s : State) : Bool :=
  match step s with
  | .next _ => true
  | .fault _ | .refused _ => false

theorem step_after {s : State} (h : goesOn s = true) : step s = .next (after s) := by
  unfold goesOn at h
  unfold after
  split at h <;> simp_all

/-- Some V registers after one step. -/
def regsAfter (s : State) (rs : List Reg) : List Byte := rs.map (getV (after s))

/-- Some bytes of memory after one step. -/
def bytesAfter (s : State) (addrs : List Nat) : List Byte := addrs.map (memRead (after s).mem)

/-- The block with a full stack. -/
def fullStack (s : State) : State := { s with stack := List.replicate 16 0x202 }

/-- A scene under `RESET_REGS = unwritten` in which only the registers `rs` have been written. -/
def unwrittenScene (w : Word) (rs : List Reg) : State :=
  { scene w [] with
    cfg := { specConfig with resetRegs := .unwritten }
    unwritten := ⟨Vector.ofFn (fun r : Reg => !rs.contains r), true⟩ }

/-! ### Well-formedness -/

theorem test_wf_sys_refuses_cls_and_ret :
    (Instr.sys 0x0E0).wf = false ∧ (Instr.sys 0x1EE).wf = false ∧ (Instr.sys 0x0DF).wf = true := by
  decide

theorem test_wf_shr_refuses_y0 :
    (Instr.shrVxVy 3 0).wf = false ∧ (Instr.shrVxVy 3 1).wf = true := by
  decide

theorem test_wf_shl_refuses_y0 :
    (Instr.shlVxVy 3 0).wf = false ∧ (Instr.shlVxVy 3 15).wf = true := by
  decide

theorem test_admits_refuses_sys_under_fault :
    Config.admits { specConfig with family0Other := .fault } (.sys 0x123) = false := by
  decide

theorem test_admits_refuses_skips_under_faithful :
    Config.admits { specConfig with keyDispatch := .faithful } (.skp 1) = false ∧
    Config.admits { specConfig with keyDispatch := .faithful } (.sknp 1) = false := by
  decide

theorem test_config_refuses_zero_frequency :
    Config.wf { specConfig with timerHz := 0 } = false ∧ Config.wf specConfig = true := by
  decide

/-! ### Decoding: words written out from 30_encoding.md R72 to R78, and 95_test_vectors.md section 2.1 -/

theorem test_decode_family0 :
    [0x0000, 0x0123, 0x00E0, 0x01E0, 0x00EE].map (decodeTableWord 16) =
      [.sys 0x000, .sys 0x123, .cls, .cls, .ret].map some := by
  decide

theorem test_encode_family0 :
    [.sys 0x000, .sys 0x123, .cls, .ret].map encode =
      [0x0000, 0x0123, 0x00E0, 0x00EE] := by
  decide

theorem test_decode_jumps :
    [0x1ABC, 0x2ABC, 0xBABC].map (decodeTableWord 16) =
      [.jp 0xABC, .call 0xABC, .jpV0 0xABC].map some := by
  decide

theorem test_encode_jumps :
    [.jp 0xABC, .call 0xABC, .jpV0 0xABC].map encode =
      [0x1ABC, 0x2ABC, 0xBABC] := by
  decide

theorem test_decode_skips :
    [0x3A42, 0x4A42, 0x5AB7, 0x9AB1].map (decodeTableWord 16) =
      [.seVxKk 0xA 0x42, .sneVxKk 0xA 0x42, .seVxVy 0xA 0xB, .sneVxVy 0xA 0xB].map some := by
  decide

theorem test_encode_skips :
    [.seVxKk 0xA 0x42, .sneVxKk 0xA 0x42].map encode =
      [0x3A42, 0x4A42] := by
  decide

theorem test_decode_immediates :
    [0x6A42, 0x7A42, 0xCA42].map (decodeTableWord 16) =
      [.ldVxKk 0xA 0x42, .addVxKk 0xA 0x42, .rnd 0xA 0x42].map some := by
  decide

theorem test_encode_immediates :
    [.ldVxKk 0xA 0x42, .addVxKk 0xA 0x42, .rnd 0xA 0x42].map encode =
      [0x6A42, 0x7A42, 0xCA42] := by
  decide

theorem test_decode_alu :
    [0x8AB0, 0x8AB1, 0x8AB2, 0x8AB3, 0x8AB4, 0x8AB5, 0x8AB7].map (decodeTableWord 16) =
      [.ldVxVy 0xA 0xB, .orVxVy 0xA 0xB, .andVxVy 0xA 0xB, .xorVxVy 0xA 0xB, .addVxVy 0xA 0xB, .subVxVy 0xA 0xB, .subnVxVy 0xA 0xB].map some := by
  decide

theorem test_encode_alu :
    [.ldVxVy 0xA 0xB, .orVxVy 0xA 0xB, .andVxVy 0xA 0xB, .xorVxVy 0xA 0xB, .addVxVy 0xA 0xB, .subVxVy 0xA 0xB, .subnVxVy 0xA 0xB].map encode =
      [0x8AB0, 0x8AB1, 0x8AB2, 0x8AB3, 0x8AB4, 0x8AB5, 0x8AB7] := by
  decide

theorem test_decode_shifts :
    [0x8AB6, 0x8ABE, 0x8A06, 0x8A0E].map (decodeTableWord 16) =
      [.shrVxVy 0xA 0xB, .shlVxVy 0xA 0xB, .shrVx 0xA, .shlVx 0xA].map some := by
  decide

theorem test_encode_shifts :
    [.shrVxVy 0xA 0xB, .shlVxVy 0xA 0xB, .shrVx 0xA, .shlVx 0xA].map encode =
      [0x8AB6, 0x8ABE, 0x8A06, 0x8A0E] := by
  decide

theorem test_decode_index_sprite_keys :
    [0xAABC, 0xDAB5, 0xEA9E, 0xEAA1].map (decodeTableWord 16) =
      [.ldINnn 0xABC, .drw 0xA 0xB 5, .skp 0xA, .sknp 0xA].map some := by
  decide

theorem test_encode_index_sprite_keys :
    [.ldINnn 0xABC, .drw 0xA 0xB 5, .skp 0xA, .sknp 0xA].map encode =
      [0xAABC, 0xDAB5, 0xEA9E, 0xEAA1] := by
  decide

theorem test_decode_family_f :
    [0xFA07, 0xFA0A, 0xFA15, 0xFA18, 0xFA1E, 0xFA29, 0xFA33, 0xFA55, 0xFA65].map (decodeTableWord 16) =
      [.ldVxDt 0xA, .ldVxK 0xA, .ldDtVx 0xA, .ldStVx 0xA, .addIVx 0xA, .ldFVx 0xA, .ldBVx 0xA, .ldMemVx 0xA, .ldVxMem 0xA].map some := by
  decide

theorem test_encode_family_f :
    [.ldVxDt 0xA, .ldVxK 0xA, .ldDtVx 0xA, .ldStVx 0xA, .addIVx 0xA, .ldFVx 0xA, .ldBVx 0xA, .ldMemVx 0xA, .ldVxMem 0xA].map encode =
      [0xFA07, 0xFA0A, 0xFA15, 0xFA18, 0xFA1E, 0xFA29, 0xFA33, 0xFA55, 0xFA65] := by
  decide

theorem test_decode_invalid :
    [0x8AB8, 0x8ABD, 0x8ABF, 0xEA9F, 0xEA00, 0xFA00, 0xFA08, 0xFAFF].map (decodeTableWord 16) =
      List.replicate 8 none := by
  decide

theorem test_decode_bytes_truncated :
    decodeTableWord 8 0x12 = some (.sys 0x012) ∧
    (match decodeBytes specConfig [0x12#8] with | .error r => r == .truncated | .ok _ => false) = true := by
  decide

/-! ### The codec (30_encoding.md R81 to R84) -/

theorem test_codec_decode :
    [0x00E0, 0x01E0, 0x5AB7, 0x8A06, 0x8AB6, 0xDAB5, 0xFA65].map codecDecode =
      [some "CLS", some "SYS 1E0", none, some "SHR VA", some "SHR VA, VB", some "DRW VA, VB, 5", some "LD VA, [I]"] := by
  decide +kernel

theorem test_codec_encode :
    ["JP 200", "ld  va,  [i]", "SHR V1", "SHR V1, V2", "NOP"].map codecEncode =
      [some 0x1200, some 0xFA65, some 0x8106, some 0x8126, none] := by
  decide +kernel

/-! ### Family 0 and control flow (95_test_vectors.md section 2.2) -/

theorem test_sys_F4 :
    (after (scene 0x0123 [])).pc = 0x202 ∧ (after (scene 0x0123 [])).v = (scene 0x0123 []).v := by
  decide

theorem test_cls_F1 :
    (after (storeBytes (scene 0x00E0 []) 0xF00 [0xAA, 0x55])).renderOut = some (List.replicate 256 0) ∧
    (after (storeBytes (scene 0x00E0 []) 0xF00 [0xAA, 0x55])).redraw = false := by
  decide +kernel

theorem test_ret_F2 :
    (after { scene 0x00EE [] with stack := [0x3FF, 0x20A] }).pc = 0x20A ∧
    (after { scene 0x00EE [] with stack := [0x3FF, 0x20A] }).stack = [0x3FF] := by
  decide

theorem test_ret_underflow_F3 :
    (after (scene 0x00EE [])).run = .faulted ⟨.stackUnderflow, 0x00EE, 0x200⟩ ∧
    (after (scene 0x00EE [])).pc = 0x202 := by
  decide

theorem test_jp_F6 :
    (after (scene 0x1201 [])).pc = 0x201 := by
  decide

theorem test_call_F7 :
    (after (scene 0x2300 [])).pc = 0x300 ∧ (after (scene 0x2300 [])).stack = [0x202] := by
  decide

theorem test_call_overflow_F8 :
    (after (fullStack (scene 0x2300 []))).run = .faulted ⟨.stackOverflow, 0x2300, 0x200⟩ ∧
    (after (fullStack (scene 0x2300 []))).stack = List.replicate 16 0x202 := by
  decide

theorem test_se_kk_F9_F10 :
    (after (scene 0x3342 [(3, 0x42)])).pc = 0x204 ∧ (after (scene 0x3343 [(3, 0x42)])).pc = 0x202 := by
  decide

theorem test_sne_kk_F11_F12 :
    (after (scene 0x4342 [(3, 0x42)])).pc = 0x202 ∧ (after (scene 0x4343 [(3, 0x42)])).pc = 0x204 := by
  decide

theorem test_se_vy_F14 :
    (after (scene 0x5125 [(1, 7), (2, 7)])).pc = 0x204 ∧ (after (scene 0x5120 [(1, 7), (2, 8)])).pc = 0x202 := by
  decide

theorem test_sne_vy_F15_F16 :
    (after (scene 0x9120 [(1, 7), (2, 8)])).pc = 0x204 ∧ (after (scene 0x9120 [(1, 7), (2, 7)])).pc = 0x202 := by
  decide

theorem test_skip_wraps_F17 :
    (after { State.withFetchWord { scene 0 [] with pc := 0xFFE } 16 0x3000 with run := .running }).pc = 0x002 := by
  decide

theorem test_jp_v0_F18_F20 :
    (after (scene 0xB300 [(0, 2)])).pc = 0x302 ∧ (after (scene 0xBFFF [(0, 0xFF)])).pc = 0x0FE := by
  decide

/-! ### Loads, ALU and RND (section 2.3) -/

theorem test_ld_kk_A1 :
    regsAfter (scene 0x6A42 []) [0xA] = [0x42] := by
  decide

theorem test_add_kk_A2 :
    regsAfter (scene 0x7102 [(1, 0xFF), (15, 7)]) [1, 15] = [1, 7] := by
  decide

theorem test_ld_vy_A4 :
    regsAfter (scene 0x8120 [(2, 0x5A)]) [1, 2] = [0x5A, 0x5A] := by
  decide

theorem test_or_A5 :
    regsAfter (scene 0x8121 [(1, 0xF0), (2, 0x3C), (15, 7)]) [1, 15] = [0xFC, 7] := by
  decide

theorem test_and_A6 :
    regsAfter (scene 0x8122 [(1, 0xF0), (2, 0x3C), (15, 7)]) [1, 15] = [0x30, 7] := by
  decide

theorem test_xor_A7 :
    regsAfter (scene 0x8123 [(1, 0xF0), (2, 0x3C), (15, 7)]) [1, 15] = [0xCC, 7] := by
  decide

theorem test_add_S2 :
    regsAfter (scene 0x8014 [(0, 0xFF), (1, 1)]) [0, 15] = [0, 1] := by
  decide

theorem test_add_vf_A10 :
    regsAfter (scene 0x8F24 [(15, 0xFF), (2, 1)]) [15] = [1] := by
  decide

theorem test_sub_S3 :
    regsAfter (scene 0x8125 [(1, 5), (2, 0x0A), (15, 1)]) [1, 15] = [0xFB, 0] := by
  decide

theorem test_sub_equal_A12 :
    regsAfter (scene 0x8125 [(1, 0x33), (2, 0x33), (15, 1)]) [1, 15] = [0, 0] := by
  decide

theorem test_shr_A14 :
    regsAfter (scene 0x8126 [(1, 3), (2, 0xFF)]) [1, 15] = [1, 1] := by
  decide

theorem test_shr_A14_shift_source_vy :
    regsAfter { scene 0x8126 [(1, 3), (2, 0xFF)] with cfg := { specConfig with shiftSource := .vy } } [1, 15] =
      [0x7F, 1] := by
  decide

theorem test_shr_alias_A16 :
    regsAfter (scene 0x8F06 [(15, 3)]) [15] = [1] := by
  decide

theorem test_subn_A17 :
    regsAfter (scene 0x8127 [(1, 5), (2, 0x0A)]) [1, 15] = [5, 1] := by
  decide

theorem test_subn_A18 :
    regsAfter (scene 0x8127 [(1, 0x0A), (2, 5), (15, 1)]) [1, 15] = [0xFB, 0] := by
  decide

theorem test_shl_A20 :
    regsAfter (scene 0x812E [(1, 0x81)]) [1, 15] = [2, 1] := by
  decide

theorem test_shl_A21 :
    regsAfter (scene 0x812E [(1, 0x40), (15, 1)]) [1, 15] = [0x80, 0] := by
  decide

theorem test_shl_alias_A22 :
    regsAfter (scene 0x8F0E [(15, 0x81)]) [15] = [1] := by
  decide

theorem test_rnd_A23 :
    regsAfter (scene 0xC00F []) [0] = [7] := by
  decide

theorem test_rnd_A24 :
    regsAfter (scene 0xC0F0 []) [0] = [0xA0] := by
  decide

/-! ### Index and sprite (section 2.4) -/

theorem test_ld_i_X1 :
    (after (sceneI 0xA123 [] 0xFFFF [])).i = 0x123 := by
  decide

theorem test_drw_wraps_X2 :
    bytesAfter (sceneI 0xD011 [(0, 0x3E)] 0x300 [0xFF]) [0xF07, 0xF00] = [0x03, 0xFC] ∧
    regsAfter (sceneI 0xD011 [(0, 0x3E), (15, 1)] 0x300 [0xFF]) [15] = [0] := by
  decide +kernel

theorem test_drw_reads_own_rows_X9 :
    bytesAfter (sceneI 0xD012 [] 0xFFF [0x80, 0xF0]) [0xF00, 0xF08, 0xFFF] = [0x80, 0xF0, 0x80] ∧
    regsAfter (sceneI 0xD012 [] 0xFFF [0x80, 0xF0]) [15] = [0] := by
  decide +kernel

/-! ### Keys (section 2.5) -/

theorem test_skp_K1_K4 :
    (after (sceneIn 0xE59E [(5, 0xA)] [some 0xA] [0])).pc = 0x204 ∧
    (after (sceneIn 0xE59E [(5, 0x10)] [some 0] [0])).pc = 0x202 := by
  decide

theorem test_skp_K3 :
    (after (sceneIn 0xE59E [(5, 0xA)] [none] [0])).pc = 0x202 ∧ (after (sceneIn 0xE59E [(5, 0xA)] [none] [0])).env.keys = [] := by
  decide

theorem test_sknp_K5_K6 :
    (after (sceneIn 0xE5A1 [(5, 0xA)] [some 0xA] [0])).pc = 0x202 ∧
    (after (sceneIn 0xE5A1 [(5, 0xA)] [none] [0])).pc = 0x204 := by
  decide

theorem test_family_e_K8 :
    (after (scene 0xE5A0 [])).run = .faulted ⟨.runtimeDispatchError, 0xE5A0, 0x200⟩ ∧
    goesOn { scene 0xE5A0 [] with cfg := { specConfig with keyDispatch := .faithful } } = false := by
  decide

/-! ### The F family (section 2.6) -/

theorem test_ld_dt_T1 :
    regsAfter { sceneIn 0xF307 [] [] [17] with dt := 0x1E } [3] = [0x1E] ∧
    (after { sceneIn 0xF307 [] [] [17] with dt := 0x1E }).dt = 0x1D := by
  decide

theorem test_set_dt_T2 :
    (after (sceneIn 0xF315 [(3, 0x3C)] [] [20])).dt = 0x3B ∧
    (after (sceneIn 0xF315 [(3, 0x3C)] [] [20])).lastTickMs = some 20 := by
  decide

theorem test_set_st_T3 :
    (after (scene 0xF318 [(3, 5)])).st = 5 := by
  decide

theorem test_add_i_T5 :
    (after (sceneI 0xF21E [(2, 1)] 0x0FFF [])).i = 0x1000 := by
  decide

theorem test_add_i_T6 :
    (after (sceneI 0xF21E [(2, 1), (15, 7)] 0xFFFF [])).i = 0 ∧
    regsAfter (sceneI 0xF21E [(2, 1), (15, 7)] 0xFFFF []) [15] = [7] := by
  decide

theorem test_ld_f_T8_T9 :
    (after (scene 0xF029 [(0, 0x0F)])).i = 0x4B ∧ (after (scene 0xF029 [(0, 0x10)])).i = 0x50 := by
  decide

theorem test_ld_f_T9_low_nibble :
    (after { scene 0xF029 [(0, 0x10)] with cfg := { specConfig with glyphIndex := .lowNibble } }).i = 0 := by
  decide

theorem test_ld_b_T10 :
    bytesAfter (sceneI 0xF033 [(0, 0x9C)] 0x300 []) [0x300, 0x301, 0x302] = [1, 5, 6] := by
  decide

theorem test_ld_b_T13 :
    bytesAfter (sceneI 0xF033 [(0, 0x7B)] 0xFFF []) [0xFFF, 0, 1, 2] = [1, 2, 3, 0x90] := by
  decide

theorem test_ld_mem_T14 :
    bytesAfter (sceneI 0xF255 [(0, 0x12), (1, 0x34), (2, 0x56), (3, 0x78)] 0x400 []) [0x400, 0x401, 0x402, 0x403] =
      [0x12, 0x34, 0x56, 0] := by
  decide

theorem test_ld_mem_into_framebuffer_M3 :
    (after (sceneI 0xF055 [(0, 0xAA)] 0xF00 [])).renderOut = none ∧
    pixel (after (sceneI 0xF055 [(0, 0xAA)] 0xF00 [])).mem 2 0 = true := by
  decide

theorem test_ld_regs_T17 :
    regsAfter (sceneI 0xF265 [(3, 0x99)] 0x300 [1, 5, 6, 7]) [0, 1, 2, 3] = [1, 5, 6, 0x99] := by
  decide

theorem test_ld_k_waits_T19 :
    (after { sceneIn 0xF30A [] [none, some 7] [100] with dt := 5 }).run = .waitingKey 3 ∧
    (after { sceneIn 0xF30A [] [none, some 7] [100] with dt := 5 }).dt = 5 := by
  decide

theorem test_ld_k_ends_T19 :
    regsAfter (after { sceneIn 0xF30A [] [none, some 7] [100] with dt := 5 }) [3] = [7] ∧
    (after (after { sceneIn 0xF30A [] [none, some 7] [100] with dt := 5 })).dt = 4 := by
  decide

/-! ### Timers, fetch, faults and the host (sections 2.7 to 2.9) -/

theorem test_timer_period_TM1 :
    (after { sceneIn 0x1200 [] [] [16] with dt := 3 }).dt = 3 ∧ (after { sceneIn 0x1200 [] [] [17] with dt := 3 }).dt = 2 := by
  decide

theorem test_timer_no_catch_up_TM2 :
    (after { sceneIn 0x1200 [] [] [50] with dt := 3, st := 1 }).dt = 2 ∧
    (after { sceneIn 0x1200 [] [] [50] with dt := 3, st := 0 }).st = 0 := by
  decide

theorem test_fetch_M2 :
    memFetch (memWrite [] 0xFFF 0x12) 0xFFF = 0x12F0 := by
  decide

theorem test_trace_record :
    (after { scene 0x6A42 [] with cfg := { specConfig with tracing := true } }).traceOut.map (fun r => (r.pc, r.opcode, r.mnemonic)) =
      some (0x200, 0x6A42, some "LD VA, 42") := by
  decide +kernel

theorem test_invalid_E1 :
    (after (scene 0x8008 [])).faultOut = some ⟨.runtimeDispatchError, 0x8008, 0x200⟩ ∧ (after (scene 0x8008 [])).pc = 0x202 ∧
    (after (scene 0x8008 [])).env.waits = [0] := by
  decide

theorem test_fault_codes :
    [FaultKind.runtimeDispatchError, .stackOverflow, .stackUnderflow].map faultCode = [1, 2, 3] := by
  decide

theorem test_glyphs_S4 :
    (List.range 5).map (memRead State.reset.mem) = [0xF0, 0x90, 0x90, 0x90, 0xF0] ∧ memRead State.reset.mem 79 = 0x80 ∧
    memRead State.reset.mem 80 = 0 := by
  decide

theorem test_with_fetch_word_runs_first :
    regsAfter (State.reset.withFetchWord 16 0x6A42) [0xA] = [0x42] := by
  decide

/-! ### The open parameters (10_state.md R41, R43; 60_exceptions.md R227; 00_scope.md R16) -/

theorem test_unwritten_read_faults :
    goesOn (unwrittenScene 0x8014 [0]) = false ∧ goesOn (unwrittenScene 0x8014 [0, 1]) = true ∧ goesOn (unwrittenScene 0xF01E [0]) = false := by
  decide +kernel

theorem test_first_write_takes_the_mark_off :
    [0, 1, 15].map (fun r : Reg => (after (unwrittenScene 0x8014 [0, 1])).unwritten.v[r]) = [false, false, false] ∧
    (after (unwrittenScene 0xA300 [])).unwritten.i = false ∧ (after (unwrittenScene 0xA300 [])).unwritten.v[0] = true := by
  decide

theorem test_reset_marks :
    (resetOf (unwrittenScene 0 [])).unwritten.v = Vector.replicate 16 true ∧ (resetOf (scene 0 [])).unwritten.i = false := by
  decide

theorem test_other_glyph_bytes :
    (List.range 6).map (memRead (resetMemory { specConfig with glyphBytes := Vector.replicate 80 0xF0 })) = List.replicate 6 0xF0 := by
  decide +kernel

theorem test_timer_half_hertz :
    periodElapsed { specConfig with timerHz := 1 / 2 } 0 1999 = false ∧
    periodElapsed { specConfig with timerHz := 1 / 2 } 0 2000 = true := by
  decide +kernel

theorem test_load_refused_in_a_cycle :
    (match loadRom (some []) { scene 0 [] with run := .waitingKey 3 } with | .error e => e == .midInstruction | .ok _ => false) = true := by
  decide

/-! ### Witnesses -/

/-- A scene meets the invariant. -/
theorem scene_blockInv : BlockInv (scene 0x6A42 []) where
  memory := by decide
  pcInRange := by decide
  stackBounded := by decide
  redrawClear := rfl
  tickInPast := by
    intro l h
    cases h
    decide
  faultRecord := by
    intro r h
    cases h
  waiting := by
    intro x h
    cases h
  marks _ := rfl

theorem scene_goes : step (scene 0x6A42 []) = .next (after (scene 0x6A42 [])) := step_after (by decide)

theorem witness_ResetMemoryGlyphsThenZero : 79 < 80 ∧ 80 < 4096 ∧ 4095 < 4096 := by decide

theorem witness_StepKeepsInvariant : ∃ s t, BlockInv s ∧ step s = .next t := ⟨_, _, scene_blockInv, scene_goes⟩

/-- Each of the four controls is taken somewhere. -/
theorem witness_HostControlsKeepInvariant :
    ∃ s, BlockInv s ∧ (∃ t, hostStop s = .ok t) ∧ (∃ t, hostReset s = .ok t) ∧
      (∃ t, loadRom (some [0x12, 0x00]) s = .ok t) ∧ ∃ t, hostReload (some [0x12, 0x00]) s = .ok t :=
  ⟨_, scene_blockInv, ⟨_, rfl⟩, ⟨_, rfl⟩, ⟨_, loadRom_running rfl (by decide)⟩,
    ⟨_, hostReload_of_not_waiting (by decide) (by decide)⟩⟩

theorem witness_ReachableStatesMeetInvariant :
    ∃ s, Reachable s ∧ s.pc ≠ 0x200 :=
  ⟨after (resetOf (scene 0x6A42 [])), .step (.reset _) (step_after (by decide +kernel)), by decide +kernel⟩

theorem witness_ConfigurationNeverChanges :
    (∃ s t, step s = .next t) ∧ ∃ s t rom, hostReload rom s = .ok t :=
  ⟨⟨_, _, scene_goes⟩, State.reset, _, some [], hostReload_of_not_waiting (by decide) (by decide)⟩

/-- A byte written and written back is the memory without it. -/
theorem witness_CanonicalMemoryIsUnique :
    ∃ m n : Memory, m ≠ [] ∧ m.wf ∧ n.wf ∧ ∀ a < 4096, memRead m a = memRead n a :=
  ⟨memWrite [] 0x300 1, memWrite (memWrite (memWrite [] 0x301 5) 0x300 1) 0x301 0, by decide, by decide, by decide,
    fun a _ => congrArg (fun m => memRead m a) (by decide)⟩

/-- The conditional instructions at the edge of what is well-formed. -/
theorem witness_DecodeOfEncode :
    [Instr.sys 0x0DF, .sys 0x0E1, .shrVxVy 15 1, .drw 15 15 15, .skp 15].map
      (fun i => i.wf && specConfig.admits i) = List.replicate 5 true := by decide

theorem witness_EncodeOfDecode : ∃ cfg w i, decode cfg w = .ok i ∧ encode i ≠ w := ⟨specConfig, 0x01E0, .cls, rfl, by decide⟩

theorem witness_StoreIsSeenByNextFetch : ∃ x : Reg, 1 ≤ x := ⟨1, by decide⟩

theorem witness_StepRunsDecodedInstruction :
    ∃ (s : State) (i : Instr) (t : State), s.run = .running ∧ decode s.cfg (memFetch s.mem s.pc.toNat) = .ok i ∧
      ¬ReadsBeforeWrite s i ∧ exec i (beginCycle s) = .next t ∧ t.run = .running :=
  ⟨scene 0x8AB4 [], .addVxVy 0xA 0xB, _, rfl, rfl, by rw [← readsUnwritten_iff]; decide, rfl, rfl⟩

/-- The clause about a cycle that has not completed: a CALL with the stack full (TM5). -/
theorem witness_StepRunsDecodedInstruction_fault :
    ∃ (s t : State) (nnn : BitVec 12), s.run = .running ∧ exec (.call nnn) s = .next t ∧ t.run ≠ .running :=
  ⟨{ scene 0x2300 [] with stack := List.replicate 16 0x200 }, _, 0x300, rfl, rfl, by decide⟩

theorem witness_RunStartTakesTheClock : State.reset.lastTickMs = none ∧ (scene 0 []).lastTickMs = some 0 := ⟨rfl, rfl⟩

theorem witness_CycleEndRendersAndClearsRedraw :
    ∃ s t : State, (s.run = .running ∧ s.redraw = true) ∧ t.run = .running ∧ t.redraw = false :=
  ⟨clearScreen (scene 0 []), scene 0 [], ⟨rfl, rfl⟩, rfl, rfl⟩

theorem witness_CycleEndTraces :
    ∃ s t : State, (s.run = .running ∧ s.cfg.tracing = true) ∧ t.run = .running ∧ t.cfg.tracing = false :=
  ⟨{ scene 0 [] with cfg := { specConfig with tracing := true } }, scene 0 [], ⟨rfl, rfl⟩, rfl, rfl⟩

/-- A running block with a last tick of 0, at a frequency, whose next clock reading is `now`. -/
def atReading (hz : Rat) (now : Nat) : State := { sceneIn 0 [] [] [now] with cfg := { specConfig with timerHz := hz } }

theorem atReading_clock (hz : Rat) (now : Nat) : clockAnswer (atReading hz now).env = now := Int.zero_add _

/-- Both sides of the period at 60 Hz, and exactly a period, of 16 ms, at 62.5 Hz. -/
theorem witness_TimerCheckTicksAfterPeriod :
    (∀ hz now, (atReading hz now).run = .running ∧ (atReading hz now).lastTickMs = some 0) ∧
    (atReading 60 17).cfg.wf = true ∧ (atReading (125 / 2) 16).cfg.wf = true ∧
    ((clockAnswer (atReading 60 17).env - 0 : Int) : Rat) ≥ 1000 / (atReading 60 17).cfg.timerHz ∧
    ((clockAnswer (atReading 60 16).env - 0 : Int) : Rat) < 1000 / (atReading 60 16).cfg.timerHz ∧
    ((clockAnswer (atReading (125 / 2) 16).env - 0 : Int) : Rat) = 1000 / (atReading (125 / 2) 16).cfg.timerHz := by
  refine ⟨fun _ _ => ⟨rfl, rfl⟩, ?_, ?_, ?_, ?_, ?_⟩ <;>
    (try rw [atReading_clock]) <;> simp only [Config.wf, atReading] <;> norm_num

theorem witness_TimersLoseAtMostOnePerStep :
    ∃ s t, step s = .next t ∧ t.dt.toNat = s.dt.toNat - 1 ∧ s.dt ≠ 0 ∧
      ∀ i, s.run = .running → decode s.cfg (memFetch s.mem s.pc.toNat) = .ok i →
        writesDt i = false ∧ writesSt i = false := by
  refine ⟨{ sceneIn 0x1200 [] [] [17] with dt := 3 }, _, step_after (by decide), by decide, by decide, ?_⟩
  intro i _ h
  have e : Except.ok i = (Except.ok (.jp 0x200) : Except Reject Instr) := h.symm.trans rfl
  cases e
  decide

theorem witness_ClockNeverGoesBack : ∃ s t, step s = .next t ∧ s.env.nowMs < t.env.nowMs :=
  ⟨sceneIn 0x1200 [] [] [17], _, step_after (by decide), by decide⟩

/-- The block waiting for a key. -/
def waiting (keys : List (Option Key)) : State := { sceneIn 0xF30A [] keys [0] with run := .waitingKey 3 }

theorem witness_WaitEndsOnlyWithAKey :
    ((waiting [none]).run = .waitingKey 3 ∧ keyAnswer (waiting [none]).env = none) ∧
    (waiting [some 15]).run = .waitingKey 3 ∧ keyAnswer (waiting [some 15]).env = some 15 := by decide

/-- Each disjunct of the statement is met. -/
theorem witness_FaultsArePreciseAndOnlyFromCallRet :
    (scene 0 []).run = .running ∧ (scene 0 []).stack = [] ∧
    specConfig.stackDepth = some (fullStack (scene 0 [])).stack.length ∧
    keyAnswer (scene 0 []).env = none := by decide

/-- A state for each outcome. -/
theorem witness_StopsOnlyWhereTheSpecSays :
    (∃ (s : State) (r : FaultRecord), s.run = .faulted r ∧ step s = .fault (.halted r)) ∧ (∃ s : State, s.run = .stopped ∧ step s = .fault .stopped) ∧
    (∃ s : State, s.cfg.keyDispatch = .faithful ∧ step s = .refused (.faithfulKeySkip 0xEFFF)) ∧ (∃ s, GoesOn s) ∧
    (∃ (s : State) (i : Instr), decode s.cfg (memFetch s.mem s.pc.toNat) = .ok i ∧ ReadsBeforeWrite s i ∧
      step s = .fault (.unwrittenRead 0x8014 0x200)) ∧ State.reset.cfg.resetRegs = .zero ∧
    ∃ (s : State) (x : Reg), s.run = .waitingKey x ∧ GoesOn s :=
  ⟨⟨raiseFault .stackOverflow (scene 0 []), _, rfl, rfl⟩, ⟨{ scene 0 [] with run := .stopped }, rfl, rfl⟩,
    ⟨{ scene 0xEFFF [] with cfg := { specConfig with keyDispatch := .faithful } }, rfl, rfl⟩, ⟨_, _, scene_goes⟩,
    ⟨unwrittenScene 0x8014 [0], .addVxVy 0 1, rfl, by rw [← readsUnwritten_iff]; decide, rfl⟩, rfl,
    waiting [none], 3, rfl, _, step_after (by decide)⟩

theorem witness_InvalidWordTakesDispatchFault :
    ∃ s : State, s.run = .running ∧ s.lastTickMs = some 0 ∧
      decode s.cfg (memFetch s.mem s.pc.toNat) = .error .invalid :=
  ⟨scene 0x800F [], rfl, rfl, rfl⟩

theorem witness_SysDoesNothing :
    ∀ nnn ∈ [0x0DF#12, 0x0E1#12, 0x0ED#12, 0x0EF#12], nnn.toNat % 256 ≠ 0xE0 ∧ nnn.toNat % 256 ≠ 0xEE := by decide

theorem witness_RetPopsOrUnderflows :
    (∃ (s : State) (l : List Addr) (a : Addr), s.stack = l ++ [a]) ∧ (scene 0 []).stack = [] :=
  ⟨⟨fullStack (scene 0 []), List.replicate 15 0x202, 0x202, rfl⟩, rfl⟩

/-- One entry below the depth, and at the depth; PC at its highest. -/
theorem witness_CallPushesOrOverflows :
    (∃ s : State, s.cfg.stackDepth ≠ some s.stack.length ∧ s.pc.toNat < 4096 ∧ s.stack.length = 15) ∧
    ∃ s : State, s.cfg.stackDepth = some s.stack.length :=
  ⟨⟨{ scene 0 [] with stack := List.replicate 15 0xFFF, pc := 0xFFF }, by decide, by decide, by decide⟩,
    fullStack (scene 0 []), rfl⟩

theorem witness_RetUndoesCall : ∃ s : State, s.cfg.stackDepth ≠ some s.stack.length ∧ s.pc.toNat < 4096 :=
  ⟨{ scene 0 [] with pc := 0xFFF }, by decide, by decide⟩

theorem witness_ShiftsSetDroppedBit : ∃ y : Reg, y ≠ 0 := ⟨1, by decide⟩

/-- Fifteen rows that end at the last byte before the framebuffer. -/
theorem witness_DrwXorsSpriteOntoPixels :
    ∃ (n : Fin 16) (s : State), n = 15 ∧ ∀ r < n.val, (s.i.toNat + r) % 4096 < 0xF00 :=
  ⟨15, setI (scene 0 []) 0xEF1, rfl, by decide⟩

theorem witness_DrwTwiceRestoresScreen :
    ∃ (x y : Reg) (n : Fin 16) (s t : State), x ≠ 15 ∧ y ≠ 15 ∧ (∀ r < n.val, (s.i.toNat + r) % 4096 < 0xF00) ∧
      exec (.drw x y n) s = .next t ∧ ∃ px < 64, ∃ py < 32, pixel s.mem px py = false ∧ pixel t.mem px py = true :=
  ⟨0, 1, 5, scene 0 [], _, by decide, by decide, by decide, rfl, 0, by decide, 0, by decide, by decide +kernel, by decide +kernel⟩

theorem witness_KeySkipsCompareOnePoll : specConfig.keyDispatch = .exact := rfl

theorem witness_WaitKeyTakesKeyOrWaits :
    (∃ (s : State) (k : Key), keyAnswer s.env = some k) ∧ ∃ s : State, keyAnswer s.env = none :=
  ⟨⟨sceneIn 0 [] [some 15] [], 15, rfl⟩, scene 0 [], rfl⟩

/-- Drawing instructions complete, with their tables' answers. -/
theorem witness_ElementsWrittenOnlyByTheirWriters :
    ∃ i s t, exec i s = .next t ∧ setsRedraw i = true ∧ writesI i = false ∧ writesPc i = false :=
  ⟨.cls, scene 0 [], _, rfl, rfl, rfl, rfl⟩

theorem witness_RegistersWrittenOnlyAsDestination :
    ∃ i s t r, exec i s = .next t ∧ destV i r = false ∧ destV i 15 = true :=
  ⟨.addVxVy 1 2, scene 0 [], _, 2, rfl, rfl, rfl⟩

theorem witness_BookkeepingNotWrittenByInstructions : ∃ i s t, exec i s = .next t ∧ drawsInput i = false :=
  ⟨.ldDtVx 1, scene 0 [], _, rfl, rfl⟩

theorem witness_SoundTimerInfluencesNothing :
    (∃ i s t, exec i s = .next t ∧ writesSt i = true) ∧ ∃ i s t, exec i s = .next t ∧ writesSt i = false :=
  ⟨⟨.ldStVx 1, scene 0 [], _, rfl, rfl⟩, .ldVxDt 1, scene 0 [], _, rfl, rfl⟩

/-- A ROM of exactly the limit, and one byte more. -/
theorem witness_RomLoadsAt200OrIsRefused :
    ((scene 0 []).run = .running ∧ (waiting []).run = .waitingKey 3 ∧ ∃ r, (after (scene 0x8008 [])).run = .faulted r) ∧
    (∃ bytes : List Byte, bytes.length = 3584 ∧ bytes.length ≤ 3584) ∧ ∃ bytes : List Byte, 3584 < bytes.length :=
  ⟨⟨rfl, rfl, _, rfl⟩, ⟨List.replicate 3584 0, List.length_replicate, List.length_replicate.le⟩, List.replicate 3585 0,
    by rw [List.length_replicate]; decide⟩

theorem witness_HostStopsAndResetsBetweenCycles :
    (scene 0 []).run = .running ∧ (waiting []).run = .waitingKey 3 ∧
    (∃ r, (after (scene 0x8008 [])).run = .faulted r) ∧ ∃ s : State, s.run = .stopped ∧ ∀ x, s.run ≠ .waitingKey x :=
  ⟨rfl, rfl, ⟨_, rfl⟩, { scene 0 [] with run := .stopped }, rfl, by decide⟩

/-- A reload out of Faulted, with a ROM of two bytes, of one and of none, and one byte too long. -/
theorem witness_ReloadResetsThenLoadsRom :
    (∀ x, (raiseFault .stackOverflow (scene 0 [])).run ≠ .waitingKey x) ∧
    ([0x12, 0x00] : List Byte).length ≤ 3584 ∧ ([0x12] : List Byte).length ≤ 3584 ∧ ([] : List Byte).length ≤ 3584 ∧
    3584 < (List.replicate 3585 (0 : Byte)).length := ⟨by decide, by decide, by decide, by decide, by rw [List.length_replicate]; decide⟩

/-- A register that is not read but written, one that is neither, and I that is not read. -/
theorem witness_UnreadRegistersInfluenceNothing :
    ∃ i s t, exec i s = .next t ∧ readsV s.cfg i 15 = false ∧ destV i 15 = true ∧ readsV s.cfg i 2 = false ∧
      readsI i = false :=
  ⟨.shrVxVy 1 2, scene 0 [], _, rfl, rfl, rfl, rfl, rfl⟩

/-- The conditional clauses of the reset registers. -/
theorem witness_ResetRegistersZeroRunNotStarted :
    specConfig.resetRegs = .zero ∧ (unwrittenScene 0 []).cfg.resetRegs = .unwritten := ⟨rfl, rfl⟩

end Sys2Proof.Tests
end

/-! SUPPORT. The state right after reset (10_state.md R40 to R44): the fixed registers, and every byte of memory. -/

namespace Sys2Proof.Machine

/-! ### Reset registers -/

/-- Settles O1: each field of `State.reset` is the value R40 and R44 give it. -/
theorem resetPcTimersStackRedraw : Obligations.ResetPcTimersStackRedraw :=
  ⟨rfl, rfl, rfl, rfl, rfl⟩

/-! ### Reset memory -/

/-- The byte in row `r` of a glyph written as one 40-bit number, top row in the highest byte. -/
def fontRow (w : BitVec 40) (r : Nat) : Byte := w.extractLsb' (8 * (4 - r)) 8

/-- The model's glyph table and the independently written font agree glyph by glyph (10_state.md R43). -/
theorem glyphTable_eq_map_fontWords :
    glyphTable = fontWords.map (fun w => (List.range 5).map (fontRow w)) := by decide

/-- A glyph number below 16 and a row below 5 name the same byte in the table and in the font. -/
theorem glyphTable_getD_eq_fontRow {g r : Nat} (hg : g < 16) (hr : r < 5) :
    (glyphTable.getD g []).getD r 0 = fontRow (fontWords.getD g 0) r := by
  have hlen : g < fontWords.length := hg
  simp [glyphTable_eq_map_fontWords, hlen, hr]

/-- What an unlisted address reads as, in terms of the font: the row `k % 5` of the glyph `k / 5` below 80, then 0. -/
theorem background_eq_fontRow (k : Nat) :
    background k = if k < 80 then fontRow (fontWords.getD (k / 5) 0) (k % 5) else 0 := by
  unfold background Config.glyphStride
  split
  · exact glyphTable_getD_eq_fontRow (by omega) (by omega)
  · rfl

/-- `State.reset` lists no cell, so its memory reads as the reset contents (assumption log 1). -/
theorem memRead_reset {a : Nat} (ha : a < 4096) : memRead State.reset.mem a = background a := by
  show background (a % 4096) = background a
  rw [Nat.mod_eq_of_lt ha]

/-- Settles O3: with the spec's glyphs by the font's agreement with the glyph table, with any other `GLYPH_BYTES` by
what a reset's memory reads as. -/
theorem resetMemoryGlyphsThenZero : Obligations.ResetMemoryGlyphsThenZero :=
  ⟨fun a ha => (memRead_reset ha).trans (background_eq_fontRow a),
   fun s _ ha => memRead_resetMemory s.cfg ha⟩

end Sys2Proof.Machine

/-! SUPPORT. Instruction fetch (20_memory.md R56): two byte reads, big-endian, the second one wrapping. -/

namespace Sys2Proof.Machine

/-! ### Fetch -/

/-- Settles O14: a fetch joins the reads at `a` and `a + 1`, and a read sees its address modulo 4096 only
(`memRead_mod`). -/
theorem fetchBigEndianWrapping : Obligations.FetchBigEndianWrapping := by
  intro m a
  calc memFetch m a
    _ = memRead m a ++ memRead m (a + 1) := rfl
    _ = memRead m (a % 4096) ++ memRead m ((a + 1) % 4096) := by rw [memRead_mod, memRead_mod]

end Sys2Proof.Machine

/-! SUPPORT. Family 0 and control flow (41_flow.md): SYS, CLS, RET, CALL, the jumps and the skips. -/

namespace Sys2Proof.Machine

/-! ### The words -/

theorem decodes_cls (z : Reg) : Decodes (formatXK 0x0 z 0xE0) .cls := by
  intro cfg
  simp [decode, decodeFamily0]

theorem decodes_ret (z : Reg) : Decodes (formatXK 0x0 z 0xEE) .ret := by
  intro cfg
  simp [decode, decodeFamily0]

theorem decodes_jp (nnn : Addr) : Decodes (formatA 0x1 nnn) (.jp nnn) := by
  intro cfg
  simp [decode]

theorem decodes_call (nnn : Addr) : Decodes (formatA 0x2 nnn) (.call nnn) := by
  intro cfg
  simp [decode]

theorem decodes_jpV0 (nnn : Addr) : Decodes (formatA 0xB nnn) (.jpV0 nnn) := by
  intro cfg
  simp [decode]

theorem decodes_seVxKk (x : Reg) (kk : Byte) : Decodes (formatXK 0x3 x kk) (.seVxKk x kk) := by
  intro cfg
  simp [decode]

theorem decodes_sneVxKk (x : Reg) (kk : Byte) : Decodes (formatXK 0x4 x kk) (.sneVxKk x kk) := by
  intro cfg
  simp [decode]

theorem decodes_seVxVy (x y : Reg) (n : Fin 16) : Decodes (formatXYN 0x5 x y n) (.seVxVy x y) := by
  intro cfg
  simp [decode]

theorem decodes_sneVxVy (x y : Reg) (n : Fin 16) : Decodes (formatXYN 0x9 x y n) (.sneVxVy x y) := by
  intro cfg
  simp [decode]

theorem setWidth_ne_of_mod_ne {nnn : Addr} {b : Byte} (h : nnn.toNat % 256 ≠ b.toNat) : nnn.setWidth 8 ≠ b := by
  rintro rfl
  exact h (BitVec.toNat_setWidth 8 nnn).symm

/-- Where `FAMILY0_OTHER = sys`, a family-0 word that is neither CLS nor RET is SYS (30_encoding.md R74). -/
theorem decode_sys {cfg : Config} {nnn : Addr} (hcfg : cfg.family0Other = .sys) (hcls : nnn.setWidth 8 ≠ 0xE0#8)
    (hret : nnn.setWidth 8 ≠ 0xEE#8) : decode cfg (formatA 0x0 nnn) = .ok (.sys nnn) := by
  simp [decode, decodeFamily0, hcfg, hcls, hret]

/-! ### The operations, each under the condition of its case -/

theorem returnFrom_of_append {s : State} {l : List Addr} {a : Addr} (h : s.stack = l ++ [a]) :
    returnFrom s = { s with stack := l, pc := addrOperand a } := by
  simp [returnFrom, h, addrOperand]

theorem returnFrom_of_empty {s : State} (h : s.stack = []) : returnFrom s = raiseFault .stackUnderflow s := by
  simp [returnFrom, h]

theorem callTo_of_room {s : State} (target : Word) (h : s.cfg.stackDepth ≠ some s.stack.length) :
    callTo target s = { s with stack := s.stack ++ [s.pc.setWidth 12], pc := target } := by
  rw [Ne, ← stackFull_iff] at h
  exact if_neg h

theorem callTo_of_full {s : State} (target : Word) (h : s.cfg.stackDepth = some s.stack.length) :
    callTo target s = raiseFault .stackOverflow s :=
  if_pos ((stackFull_iff s).mpr h)

/-- A PC in range is kept whole as a stack entry (10_state.md R27). -/
theorem pc_setWidth_toNat {s : State} (h : s.pc.toNat < 4096) : (s.pc.setWidth 12).toNat = s.pc.toNat := by
  rw [BitVec.toNat_setWidth]
  exact Nat.mod_eq_of_lt h

theorem jumps_setPc {s : State} {target : Word} {n : Nat} (h : target.toNat = n) : Jumps s (setPc s target) n :=
  ⟨rfl, h⟩

theorem onlyPc_skipIf (c : Bool) (s : State) : OnlyPc s (skipIf c s) := by
  rw [skipIf_eq]
  rfl

/-- A conditional skip under a Boolean test moves PC exactly if what it tests holds (41_flow.md R100). -/
theorem skipsIf_skipIf {c : Bool} {p : Prop} (s : State) (h : c = true ↔ p) : SkipsIf s (skipIf c s) p := by
  refine ⟨onlyPc_skipIf c s, fun hp => ?_, fun hp => ?_⟩
  · rw [h.mpr hp]
    exact nextPc_toNat s.pc
  · rw [Bool.eq_false_iff.mpr (mt h.mp hp)]
    rfl

/-! ### The obligations -/

/-- Settles O27: SYS answers the state it was given, and `specConfig` has `FAMILY0_OTHER = sys`, so a low byte other than
the two keys is SYS. -/
theorem sysDoesNothing : Obligations.SysDoesNothing :=
  fun nnn s => ⟨exec_sys nnn s, fun hcls hret =>
    decode_sys rfl (setWidth_ne_of_mod_ne hcls) (setWidth_ne_of_mod_ne hret)⟩

/-- Settles O28: CLS is `clearScreen`, and a cleared framebuffer reads 0 and leaves every other byte
(`memRead_clearFramebuffer`). -/
theorem clsZeroesFramebuffer : Obligations.ClsZeroesFramebuffer :=
  ⟨decodes_cls, fun s => ⟨clearScreen s, exec_cls s, rfl, memRead_clearFramebuffer s.mem⟩⟩

/-- Settles O29: RET is `returnFrom`, with an entry on the stack and with none. -/
theorem retPopsOrUnderflows : Obligations.RetPopsOrUnderflows := by
  refine ⟨decodes_ret, fun s l a h => ?_, fun s h => ?_⟩
  · rw [exec_ret, returnFrom_of_append h]
    exact ⟨_, rfl, rfl, addrOperand_toNat a⟩
  · rw [exec_ret, returnFrom_of_empty h]
    rfl

/-- Settles O30: CALL is `callTo`, with room on the stack and with none; a PC in range is pushed whole. -/
theorem callPushesOrOverflows : Obligations.CallPushesOrOverflows := by
  refine ⟨decodes_call, fun nnn s hroom hpc => ?_, fun nnn s hfull => ?_⟩
  · rw [exec_call, callTo_of_room _ hroom]
    exact ⟨_, _, rfl, rfl, pc_setWidth_toNat hpc, addrOperand_toNat nnn⟩
  · rw [exec_call, callTo_of_full _ hfull]
    rfl

/-- Settles O32: both jumps are a `setPc`; the sum of JP V0, nnn wraps in `jumpV0Target`. -/
theorem jumpsSetPc : Obligations.JumpsSetPc :=
  ⟨fun nnn => ⟨decodes_jp nnn, decodes_jpV0 nnn⟩, fun nnn s =>
    ⟨⟨_, exec_jp nnn s, jumps_setPc (addrOperand_toNat nnn)⟩,
      _, exec_jpV0 nnn s, jumps_setPc (jumpV0Target_toNat s nnn)⟩⟩

/-- Settles O33: each skip is a `skipIf` under the Boolean form of its comparison. -/
theorem skipsOnComparison : Obligations.SkipsOnComparison :=
  ⟨fun x kk => ⟨decodes_seVxKk x kk, decodes_sneVxKk x kk⟩,
    fun x y n => ⟨decodes_seVxVy x y n, decodes_sneVxVy x y n⟩,
    fun x kk s => ⟨⟨_, exec_seVxKk x kk s, skipsIf_skipIf s beq_iff_eq⟩,
      _, exec_sneVxKk x kk s, skipsIf_skipIf s bne_iff_ne⟩,
    fun x y s => ⟨⟨_, exec_seVxVy x y s, skipsIf_skipIf s beq_iff_eq⟩,
      _, exec_sneVxVy x y s, skipsIf_skipIf s bne_iff_ne⟩⟩

end Sys2Proof.Machine

/-! SUPPORT. Immediate loads, the register ALU and RND (42_alu.md): what a write of V registers and each flag is, and the
exact arithmetic of the byte results. -/

namespace Sys2Proof.Machine

/-! ### The words -/

theorem decodes_ldVxKk (x : Reg) (kk : Byte) : Decodes (formatXK 0x6 x kk) (.ldVxKk x kk) := by
  intro cfg
  simp [decode]

theorem decodes_addVxKk (x : Reg) (kk : Byte) : Decodes (formatXK 0x7 x kk) (.addVxKk x kk) := by
  intro cfg
  simp [decode]

theorem decodes_rnd (x : Reg) (kk : Byte) : Decodes (formatXK 0xC x kk) (.rnd x kk) := by
  intro cfg
  simp [decode]

/-- A word of family 8 is what its low nibble selects, under every configuration (30_encoding.md R75). -/
theorem decodes_family8 {x y : Reg} {n : Fin 16} {i : Instr} (h : decodeFamily8 x y n = .ok i) :
    Decodes (formatXYN 0x8 x y n) i := by
  intro cfg
  simp [decode, h]

/-! ### Writes of a register, and of a register and a flag -/

theorem writesV_setV (s : State) (x : Reg) (b : Byte) : WritesV s (setV s x b) x b :=
  ⟨rfl, getV_setV s x b⟩

theorem writesVFlag_setVFlag (s : State) (x : Reg) (b : Byte) {flag f : Byte} (h : flag = f) :
    WritesVFlag s (setVFlag s x b flag) x b f := by
  subst h
  exact ⟨rfl, getV_setVFlag s x b flag⟩

/-! ### Flags and results as exact numbers -/

theorem flagByte_decide (p : Prop) [Decidable p] : flagByte (decide p) = if p then 1 else 0 := by
  simp [flagByte]

theorem carryFlag_eq (a b : Byte) : carryFlag a b = if a.toNat + b.toNat > 255 then 1 else 0 :=
  flagByte_decide _

theorem notBorrowFlag_eq (a b : Byte) : notBorrowFlag a b = if a.toNat > b.toNat then 1 else 0 :=
  flagByte_decide _

/-- A difference of bytes is the integer difference modulo 256 (42_alu.md R130). -/
theorem byte_sub_toNat (a b : Byte) : ((a - b).toNat : Int) = ((a.toNat : Int) - b.toNat) % 256 := by
  have ha := a.isLt
  have hb := b.isLt
  rw [BitVec.toNat_sub]
  omega

/-! ### RND -/

/-- Any two bytes are the next two draws of some environment (00_scope.md R12). -/
theorem exists_env_rands (r r' : Byte) : ∃ e, randAnswer e = r ∧ randAnswer (afterRand e) = r' :=
  ⟨{ Env.initial with rands := [r, r'] }, rfl, rfl⟩

/-! ### The obligations -/

/-- Settles O34: each of the three is a `setV`, which writes Vx and nothing else (`writesV_setV`). -/
theorem immediateLoadsAndMove : Obligations.ImmediateLoadsAndMove :=
  ⟨fun x kk => ⟨decodes_ldVxKk x kk, decodes_addVxKk x kk⟩,
    fun _ _ => decodes_family8 rfl,
    fun x kk s => ⟨_, exec_ldVxKk x kk s, writesV_setV s x kk⟩,
    fun x kk s => ⟨_, _, exec_addVxKk x kk s, writesV_setV s x _, BitVec.toNat_add (getV s x) kk⟩,
    fun x y s => ⟨_, exec_ldVxVy x y s, writesV_setV s x _⟩⟩

/-- Settles O35: each of the three is a `setV` of the bitwise result, so VF is written only as the destination. -/
theorem logicOperations : Obligations.LogicOperations :=
  ⟨fun _ _ => ⟨decodes_family8 rfl, decodes_family8 rfl, decodes_family8 rfl⟩,
    fun x y s => ⟨⟨_, exec_orVxVy x y s, writesV_setV s x _⟩,
      ⟨_, exec_andVxVy x y s, writesV_setV s x _⟩,
      _, exec_xorVxVy x y s, writesV_setV s x _⟩⟩

/-- Settles O36: ADD is a `setVFlag`, so the flag is written last; its carry is that of the exact sum. -/
theorem addSetsCarry : Obligations.AddSetsCarry :=
  fun x y => ⟨decodes_family8 rfl, fun s =>
    ⟨_, _, exec_addVxVy x y s, writesVFlag_setVFlag s x _ (carryFlag_eq (getV s x) (getV s y)),
      BitVec.toNat_add (getV s x) (getV s y)⟩⟩

/-- Settles O37: SUB and SUBN are a `setVFlag` with minuend and subtrahend exchanged; the difference wraps modulo 256
(`byte_sub_toNat`) and the flag is the strict comparison. -/
theorem subtractionsSetNotBorrow : Obligations.SubtractionsSetNotBorrow :=
  fun x y => ⟨decodes_family8 rfl, decodes_family8 rfl, fun s =>
    ⟨⟨_, _, exec_subVxVy x y s, writesVFlag_setVFlag s x _ (notBorrowFlag_eq (getV s x) (getV s y)),
        byte_sub_toNat (getV s x) (getV s y)⟩,
      _, _, exec_subnVxVy x y s, writesVFlag_setVFlag s x _ (notBorrowFlag_eq (getV s y) (getV s x)),
        byte_sub_toNat (getV s y) (getV s x)⟩⟩

/-- Settles O40: RND is a `setV` of the masked draw with the environment moved on by that one draw. -/
theorem rndMasksAFreeByte : Obligations.RndMasksAFreeByte :=
  ⟨exists_env_rands, decodes_rnd, fun x kk s =>
    ⟨_, exec_rnd x kk s, rfl, getV_setV s x (randAnswer s.env &&& kk)⟩⟩

end Sys2Proof.Machine

/-! SUPPORT. The writers of I and the sprite draw (43_index_sprite.md): the numbers I becomes, and DRW as its rows one after
the other. -/

namespace Sys2Proof.Machine

/-! ### The words -/

theorem decodes_ldINnn (nnn : Addr) : Decodes (formatA 0xA nnn) (.ldINnn nnn) := by
  intro cfg
  simp [decode]

theorem decodes_drw (x y : Reg) (n : Fin 16) : Decodes (formatXYN 0xD x y n) (.drw x y n) := by
  intro cfg
  simp [decode]

/-- A word of family F is what its low byte selects, under every configuration (30_encoding.md R77). -/
theorem decodes_familyF {x : Reg} {kk : Byte} {i : Instr} (h : decodeFamilyF x kk = .ok i) :
    Decodes (formatXK 0xF x kk) i := by
  intro cfg
  simp [decode, h]

/-! ### What I becomes -/

theorem onlyI_setI (s : State) (w : Word) : OnlyI s (setI s w) := rfl

/-- A byte added to a word wraps modulo 65536, not 4096 (45_timer_memory.md R193). -/
theorem word_add_byte_toNat (w : Word) (b : Byte) : (w + b.setWidth 16).toNat = (w.toNat + b.toNat) % 65536 := by
  have hb := b.isLt
  rw [BitVec.toNat_add, BitVec.toNat_setWidth]
  omega

theorem glyphNumber_eq (s : State) (x : Reg) :
    glyphNumber s x = if s.cfg.glyphIndex = .full then (getV s x).toNat else (getV s x).toNat % 16 := by
  unfold glyphNumber
  cases s.cfg.glyphIndex <;> rfl

theorem glyphNumber_lt (s : State) (x : Reg) : glyphNumber s x < 256 := by
  have hx := (getV s x).isLt
  rw [glyphNumber_eq]
  split <;> omega

/-- The glyph address does not wrap: the greatest one is 5 * 255 (45_timer_memory.md R194). -/
theorem glyphOperand_toNat (s : State) (x : Reg) : (glyphOperand s x).toNat = 5 * glyphNumber s x := by
  have hg := glyphNumber_lt s x
  rw [glyphOperand, BitVec.toNat_ofNat, Config.glyphStride]
  omega

/-! ### One more row of a sprite -/

theorem memRead_drawSprite_succ_outside (cx cy base r : Nat) (m : Memory) {a : Nat} (ha : a % 4096 < 0xF00) :
    memRead (drawSprite cx cy base (r + 1) m).mem a = memRead (drawSprite cx cy base r m).mem a := by
  rw [drawSprite_succ]
  exact memRead_drawRow_outside cx cy r _ _ ha

/-- The next row, read from the memory the rows above have been drawn in, inverts the pixels it covers. -/
theorem pixel_drawSprite_succ (cx cy base r : Nat) (m : Memory) {px py : Nat} (hx : px < 64) (hy : py < 32) :
    pixel (drawSprite cx cy base (r + 1) m).mem px py =
      (pixel (drawSprite cx cy base r m).mem px py !=
        rowCovers cx cy r (memRead (drawSprite cx cy base r m).mem (base + r)) px py) := by
  rw [drawSprite_succ]
  exact (drawRow_spec cx cy r _ _).1 px hx py hy

/-- A sprite records a hit exactly if one of its rows covers a pixel that is lit when that row is drawn. -/
theorem drawSprite_hit_iff (cx cy base n : Nat) (m : Memory) :
    (drawSprite cx cy base n m).hit = true ↔ ∃ r < n, ∃ px < 64, ∃ py < 32,
      rowCovers cx cy r (memRead (drawSprite cx cy base r m).mem (base + r)) px py = true ∧
        pixel (drawSprite cx cy base r m).mem px py = true := by
  induction n with
  | zero => simp [drawSprite]
  | succ n ih =>
    rw [drawSprite_succ, (drawRow_spec cx cy n _ _).2, ih]
    exact Nat.exists_lt_succ_right.symm

/-! ### DRW on the state -/

theorem collisionFlag_eq_one_iff (hit : Bool) : collisionFlag hit = 1 ↔ hit = true := by
  cases hit <;> decide

theorem collisionFlag_zero_or_one (hit : Bool) : collisionFlag hit = 0 ∨ collisionFlag hit = 1 := by
  cases hit <;> decide

/-- What DRW does to the state: the memory is the one the sprite was drawn in, VF the collision, the redraw flag set, and
nothing else changes. -/
theorem exec_drw_state (x y : Reg) (n : Fin 16) (s : State) :
    ∃ t, exec (.drw x y n) s = .next t ∧ t = { s with v := t.v, mem := t.mem, redraw := true } ∧
      t.mem = (drawOf x y n s).mem ∧
      ∀ r, getV t r = if r = 15 then collisionFlag (drawOf x y n s).hit else getV s r :=
  ⟨_, exec_drw x y n s, rfl, rfl, getV_setV { s with mem := (drawOf x y n s).mem } vf _⟩

/-! ### The obligations -/

/-- Settles O43: the memories are those the first `r` rows have been drawn in. One more row is `pixel_drawSprite_succ`
inside the framebuffer and nothing outside it; the collision is the hit of the whole sprite (`drawSprite_hit_iff`). -/
theorem drwDrawsRowByRow : Obligations.DrwDrawsRowByRow := by
  intro x y n
  refine ⟨decodes_drw x y n, fun s => ?_⟩
  obtain ⟨t, hexec, hframe, hmem, hv⟩ := exec_drw_state x y n s
  have hvf : getV t 15 = collisionFlag (drawOf x y n s).hit := hv 15
  refine ⟨t, fun r => (drawSprite (getV s x).toNat (getV s y).toNat s.i.toNat r s.mem).mem,
    hexec, rfl, hmem.symm, hframe, fun r hr => (hv r).trans (if_neg hr), fun r _ => ⟨?_, ?_⟩, ?_, ?_⟩
  · exact fun a ha => memRead_drawSprite_succ_outside _ _ _ r _ ha
  · exact fun px hx py hy => pixel_drawSprite_succ _ _ _ r _ hx hy
  · rw [hvf, collisionFlag_eq_one_iff]
    exact drawSprite_hit_iff _ _ _ n.val s.mem
  · rw [hvf]
    exact collisionFlag_zero_or_one _

/-- Settles O41: each of the three is a `setI`, of the address, of the wrapped sum, of the glyph's address. -/
theorem indexLoads : Obligations.IndexLoads :=
  ⟨decodes_ldINnn, fun _ => ⟨decodes_familyF rfl, decodes_familyF rfl⟩,
    fun nnn s => ⟨_, exec_ldINnn nnn s, onlyI_setI s _, addrOperand_toNat nnn⟩,
    fun x s => ⟨_, exec_addIVx x s, onlyI_setI s _, word_add_byte_toNat s.i (getV s x)⟩,
    fun x s => ⟨_, exec_ldFVx x s, onlyI_setI s _, by rw [setI_i, glyphOperand_toNat, glyphNumber_eq]⟩⟩

end Sys2Proof.Machine

/-! SUPPORT. The key skips (44_keys.md R180 to R182): the words of family E, what a poll answers, and the skip after it. -/

namespace Sys2Proof.Machine

/-! ### The words -/

/-- Under `KEY_DISPATCH = exact` a word of family E with low byte 9E is SKP (30_encoding.md R76). -/
theorem decode_skp {cfg : Config} (x : Reg) (hcfg : cfg.keyDispatch = .exact) :
    decode cfg (formatXK 0xE x 0x9E) = .ok (.skp x) := by
  simp [decode, decodeFamilyE, hcfg]

/-- Under `KEY_DISPATCH = exact` a word of family E with low byte A1 is SKNP (30_encoding.md R76). -/
theorem decode_sknp {cfg : Config} (x : Reg) (hcfg : cfg.keyDispatch = .exact) :
    decode cfg (formatXK 0xE x 0xA1) = .ok (.sknp x) := by
  simp [decode, decodeFamilyE, hcfg]

/-! ### The poll and the skip -/

/-- Any two answers are those of the next two polls of some environment (44_keys.md R180). -/
theorem exists_env_keys (k k' : Option Key) : ∃ e, keyAnswer e = k ∧ keyAnswer (afterKey e) = k' :=
  ⟨{ Env.initial with keys := [k, k'] }, rfl, rfl⟩

theorem keyMatches_iff (a : Option Key) (b : Byte) : keyMatches a b = true ↔ ∃ k, a = some k ∧ k.val = b.toNat := by
  cases a with
  | none => simp [keyMatches]
  | some k => simp [keyMatches]

theorem not_keyMatches_iff (a : Option Key) (b : Byte) :
    (!keyMatches a b) = true ↔ ¬∃ k, a = some k ∧ k.val = b.toNat := by
  rw [Bool.not_eq_true', ← Bool.not_eq_true, keyMatches_iff]

/-- A conditional skip neither reads nor changes the environment. -/
theorem skipIf_withEnv (c : Bool) (s : State) (e : Env) :
    { skipIf c s with env := e } = skipIf c { s with env := e } := by
  rw [skipIf_eq, skipIf_eq]

/-! ### The obligation -/

/-- Settles O46: each of the two is a `skipIf` on the polled state (`skipIf_withEnv`), under the Boolean form of "the poll
answers the key in Vx" or under its negation. -/
theorem keySkipsCompareOnePoll : Obligations.KeySkipsCompareOnePoll := by
  refine ⟨exists_env_keys, fun cfg x hcfg => ⟨decode_skp x hcfg, decode_sknp x hcfg⟩, fun x s => ⟨?_, ?_⟩⟩
  · rw [exec_skp, skipIf_withEnv]
    exact ⟨_, rfl, skipsIf_skipIf _ (keyMatches_iff _ _)⟩
  · rw [exec_sknp, skipIf_withEnv]
    exact ⟨_, rfl, skipsIf_skipIf _ (not_keyMatches_iff _ _)⟩

end Sys2Proof.Machine

/-! SUPPORT. The timer moves and the bulk memory transfers (45_timer_memory.md R190 to R192 and R195 to R197): what a store of
bytes leaves in memory, the digits of a byte, and the registers up to Vx as a list. -/

namespace Sys2Proof.Machine

/-! ### Bytes stored and registers loaded -/

theorem onlyMem_storeBytes (s : State) (a : Nat) (bs : List Byte) : OnlyMem s (storeBytes s a bs) := rfl

/-- The addresses wrap modulo 4096 (20_memory.md R51); no more bytes than addresses, so none is written over. -/
theorem storesAt_storeBytes (s : State) (a : Nat) {bs : List Byte} (hl : bs.length ≤ 4096) :
    StoresAt s (storeBytes s a bs) a bs :=
  ⟨fun k hk => memRead_memWriteList_inside bs s.mem a k hl hk,
    fun c hc => memRead_memWriteList_outside bs s.mem a c hc⟩

theorem onlyV_loadRegs (s : State) (a n : Nat) : OnlyV s (loadRegs s a n) := rfl

/-! ### The bytes that LD B, Vx and LD [I], Vx store -/

/-- A number that some byte reaches fits a byte; so do the quotients and remainders of a byte. -/
theorem toNat_ofNat_of_le {n : Nat} {b : Byte} (h : n ≤ b.toNat) : (BitVec.ofNat 8 n).toNat = n :=
  (BitVec.toNat_ofNat n 8).trans (Nat.mod_eq_of_lt (h.trans_lt b.isLt))

theorem length_regsUpTo (s : State) (x : Reg) : (regsUpTo s x).length = x.val + 1 := by
  simp [regsUpTo]

theorem getElem_regsUpTo {s : State} {x r : Reg} (h : r.val < (regsUpTo s x).length) :
    (regsUpTo s x)[r.val] = getV s r := by
  simp [regsUpTo, getV]

/-- LD [I], Vx stores each register up to Vx at its own distance from I (45_timer_memory.md R196). -/
theorem storesAt_regsUpTo {s t : State} {a : Nat} {x : Reg} (h : StoresAt s t a (regsUpTo s x)) :
    (∀ r : Reg, r ≤ x → memRead t.mem (a + r.val) = getV s r) ∧
      ∀ c, (∀ r : Reg, r ≤ x → c % 4096 ≠ (a + r.val) % 4096) → memRead t.mem c = memRead s.mem c := by
  obtain ⟨hin, hout⟩ := h
  rw [length_regsUpTo] at hout
  refine ⟨fun r hr => ?_, fun c hc => hout c fun k hk => ?_⟩
  · have hlen : r.val < (regsUpTo s x).length := by
      rw [length_regsUpTo]
      exact Nat.lt_succ_of_le hr
    rw [hin r.val hlen, getElem_regsUpTo]
  · exact hc ⟨k, by omega⟩ (Nat.le_of_lt_succ hk)

/-! ### The obligations -/

/-- Settles O48: LD Vx, DT is a `setV`; the other two replace the one timer, so the last tick stays
(60_exceptions.md R232). -/
theorem timerRegisterMoves : Obligations.TimerRegisterMoves :=
  ⟨fun _ => ⟨decodes_familyF rfl, decodes_familyF rfl, decodes_familyF rfl⟩,
    fun x s => ⟨⟨_, exec_ldVxDt x s, writesV_setV s x s.dt⟩, ⟨_, exec_ldDtVx x s, rfl⟩, _, exec_ldStVx x s, rfl⟩⟩

/-- Settles O49: the three bytes of `bcdDigits` stand at I, I + 1 and I + 2 (`storesAt_storeBytes`); as none exceeds Vx,
making a byte of it loses nothing. -/
theorem bcdStoresThreeDigits : Obligations.BcdStoresThreeDigits := by
  refine ⟨fun _ => decodes_familyF rfl, fun x s =>
    ⟨_, _, _, _, exec_ldBVx x s, onlyMem_storeBytes s _ _, storesAt_storeBytes s _ (by simp [bcdDigits]), ?_, ?_, ?_⟩⟩
  · exact toNat_ofNat_of_le (Nat.div_le_self _ 100)
  · exact toNat_ofNat_of_le ((Nat.mod_le _ 10).trans (Nat.div_le_self _ 10))
  · exact toNat_ofNat_of_le (Nat.mod_le _ 10)

/-- Settles O50: `regsUpTo` is stored from I on (`storesAt_storeBytes`), and its entries are V0 to Vx (`storesAt_regsUpTo`). -/
theorem bulkStoreWritesRegisters : Obligations.BulkStoreWritesRegisters :=
  ⟨fun _ => decodes_familyF rfl, fun x s =>
    have hlen : (regsUpTo s x).length ≤ 4096 := by
      rw [length_regsUpTo]
      omega
    ⟨_, exec_ldMemVx x s, onlyMem_storeBytes s _ _, storesAt_regsUpTo (storesAt_storeBytes s _ hlen)⟩⟩

/-- Settles O51: LD Vx, [I] is a `loadRegs` of the x + 1 registers below x + 1, which are those up to Vx. -/
theorem bulkLoadReadsRegisters : Obligations.BulkLoadReadsRegisters := by
  refine ⟨fun _ => decodes_familyF rfl, fun x s => ⟨_, exec_ldVxMem x s, onlyV_loadRegs s _ _, fun r => ?_⟩⟩
  have hle : r.val < x.val + 1 ↔ r ≤ x := Nat.lt_succ_iff
  simp only [getV_loadRegs, hle]

end Sys2Proof.Machine

/-! SUPPORT. The end of a completed cycle (60_exceptions.md): what the redraw point presents, and what the cycle leaves. -/

namespace Sys2Proof.Machine

/-! ### The obligations -/

/-- Settles O18: the end of a completed cycle replaces the seven named fields only (`finishCycle_running_eq`); the port
takes the framebuffer in the branch where the flag is set. -/
theorem cycleEndRendersAndClearsRedraw : Obligations.CycleEndRendersAndClearsRedraw := by
  intro s hrun
  rw [finishCycle_running_eq hrun]
  refine ⟨rfl, fun hset => ?_, fun hclear => ?_, rfl⟩
  · exact if_pos hset
  · exact if_neg (Bool.eq_false_iff.mp hclear)

end Sys2Proof.Machine

/-! SUPPORT. The invariant between steps (10_state.md, 60_exceptions.md): what of it holds inside a cycle as well, and how the
end of a cycle, a fault and a key wait make it whole again. -/

namespace Sys2Proof.Machine

/-! ### The part of the invariant that holds inside a cycle -/

/-- The clauses of `BlockInv` that neither the redraw flag nor the run state enters: they hold between the start of a cycle
and its end as well. -/
structure CycleInv (s : State) : Prop where
  memory : Memory.wf s.mem
  pcInRange : s.pc.toNat < 4096
  stackBounded : ∀ d, s.cfg.stackDepth = some d → s.stack.length ≤ d
  tickInPast : ∀ l, s.lastTickMs = some l → l ≤ s.env.nowMs
  marks : s.cfg.resetRegs = .zero → s.unwritten = resetMarks .zero

theorem BlockInv.cycleInv {s : State} (h : BlockInv s) : CycleInv s :=
  ⟨h.memory, h.pcInRange, h.stackBounded, h.tickInPast, h.marks⟩

/-- The run start takes the clock's reading as the last tick; a run that has started keeps its tick. -/
theorem runStart_tickInPast {s : State} (h : ∀ l, s.lastTickMs = some l → l ≤ s.env.nowMs) :
    ∀ l, (runStart s).lastTickMs = some l → l ≤ (runStart s).env.nowMs := by
  cases hl : s.lastTickMs with
  | some l => rwa [runStart_some hl]
  | none =>
    rw [runStart_none hl]
    intro l e
    rw [afterClock_nowMs, Option.some.inj e]

theorem cycleInv_beginCycle {s : State} (h : CycleInv s) : CycleInv (beginCycle s) where
  memory := by rw [beginCycle_mem]; exact h.memory
  pcInRange := by rw [beginCycle_pc]; exact nextPc_lt s.pc
  stackBounded := by rw [beginCycle_cfg, beginCycle_stack]; exact h.stackBounded
  tickInPast := runStart_tickInPast (s := clearPorts s) h.tickInPast
  marks := by rw [beginCycle_cfg, beginCycle_unwritten]; exact h.marks

theorem cycleInv_exec {i : Instr} {s t : State} (hrun : s.run = .running) (h : CycleInv s) (he : exec i s = .next t) :
    CycleInv t := by
  have k := exec_keeps hrun h.memory h.pcInRange h.stackBounded he
  refine ⟨k.memory, k.pcInRange, k.stackBounded, ?_, ?_⟩
  · rw [k.lastTickMs, k.nowMs]
    exact h.tickInPast
  · rw [k.cfg, k.unwritten]
    exact h.marks

theorem cycleInv_markWritten {i : Instr} {s : State} (h : CycleInv s) : CycleInv (markWritten i s) where
  memory := by rw [markWritten_mem]; exact h.memory
  pcInRange := by rw [markWritten_pc]; exact h.pcInRange
  stackBounded := by rw [markWritten_cfg, markWritten_stack]; exact h.stackBounded
  tickInPast := by rw [markWritten_lastTickMs, markWritten_env]; exact h.tickInPast
  marks := by
    rw [markWritten_cfg]
    intro hz
    by_cases hrun : s.run = .running
    · rw [markWritten_running hrun, h.marks hz, writtenMarks_resetMarks_zero]
    · rw [markWritten_not_running hrun, h.marks hz]

/-- One poll of LD Vx, K takes no time and touches nothing that the clauses are about. -/
theorem cycleInv_pollKey {s : State} (x : Reg) (h : CycleInv s) : CycleInv (pollKey x s) := by
  rw [pollKey_eq]
  refine ⟨h.memory, h.pcInRange, h.stackBounded, ?_, h.marks⟩
  rw [afterKey_nowMs]
  exact h.tickInPast

/-! ### The whole invariant at the end of a step -/

/-- The end of a completed cycle clears the redraw flag, and its tick is the clock's reading or the one before. -/
theorem blockInv_finishCycle {s : State} (hrun : s.run = .running) (h : CycleInv s) : BlockInv (finishCycle s) := by
  rw [finishCycle_running_eq hrun]
  refine ⟨h.memory, h.pcInRange, h.stackBounded, rfl, fun l hl => ?_, fun r hr => ?_, fun x hx => ?_, h.marks⟩
  · rw [afterClock_nowMs]
    split at hl
    · rw [Option.some.inj hl]
    · exact (h.tickInPast l hl).trans (nowMs_le_clockAnswer s.env)
  · cases hrun.symm.trans hr
  · cases hrun.symm.trans hx

/-- A step that ends in a fault whose record is the cycle's word and address (60_exceptions.md R221). -/
theorem blockInv_faulted {s : State} {k : FaultKind} (h : CycleInv s) (hredraw : s.redraw = false)
    (hrun : s.run = .faulted ⟨k, s.fetchWord, s.fetchAddr⟩) (haddr : s.fetchAddr.toNat < 4096)
    (hword : s.fetchWord = memFetch s.mem s.fetchAddr.toNat) (hpc : s.pc = nextPc s.fetchAddr) : BlockInv s := by
  refine ⟨h.memory, h.pcInRange, h.stackBounded, hredraw, h.tickInPast, fun r hr => ?_, fun x hx => ?_, h.marks⟩
  · cases hrun.symm.trans hr
    exact ⟨haddr, hword, hpc⟩
  · cases hrun.symm.trans hx

/-- A step that ends in the wait of the cycle's own LD Vx, K (60_exceptions.md R239). -/
theorem blockInv_waiting {s : State} {x : Reg} (h : CycleInv s) (hredraw : s.redraw = false)
    (hrun : s.run = .waitingKey x) (hstarted : s.lastTickMs ≠ none)
    (hword : s.fetchWord = memFetch s.mem s.fetchAddr.toNat) (hpc : s.pc = nextPc s.fetchAddr)
    (hdecode : decode s.cfg s.fetchWord = .ok (.ldVxK x)) : BlockInv s := by
  refine ⟨h.memory, h.pcInRange, h.stackBounded, hredraw, h.tickInPast, fun r hr => ?_, fun y hy => ?_, h.marks⟩
  · cases hrun.symm.trans hr
  · cases hrun.symm.trans hy
    exact ⟨hstarted, hword, hpc, hdecode⟩

theorem beginCycle_lastTickMs_ne_none (s : State) : (beginCycle s).lastTickMs ≠ none :=
  runStart_lastTickMs_ne_none (clearPorts s)

/-- A cycle that dispatches an instruction keeps the invariant: it completes, or it ends in the fault of CALL or RET or in the
wait of LD Vx, K, in which nothing that their clauses name has changed since the fetch. -/
theorem blockInv_dispatch {s u : State} {i : Instr} (hinv : BlockInv s) (hrun : s.run = .running)
    (hdecode : decode s.cfg (memFetch s.mem s.pc.toNat) = .ok i) (he : exec i (beginCycle s) = .next u) :
    BlockInv (finishCycle (markWritten i u)) := by
  have hbegin : CycleInv (beginCycle s) := cycleInv_beginCycle hinv.cycleInv
  have hrunB : (beginCycle s).run = .running := (beginCycle_run s).trans hrun
  have hu : CycleInv u := cycleInv_exec hrunB hbegin he
  have k := exec_keeps hrunB hbegin.memory hbegin.pcInRange hbegin.stackBounded he
  have hword : u.fetchWord = memFetch s.mem s.pc.toNat := k.fetchWord.trans (beginCycle_fetchWord s)
  have haddr : u.fetchAddr = s.pc := k.fetchAddr.trans (beginCycle_fetchAddr s)
  rcases k.run with hur | ⟨hredraw, hmem, hpc, hend⟩
  · exact blockInv_finishCycle ((markWritten_run i u).trans hur) (cycleInv_markWritten hu)
  · have hne : u.run ≠ .running := by
      rcases hend with ⟨x, -, hw⟩ | ⟨f, hf⟩
      · rw [hw]; nofun
      · rw [hf]; nofun
    rw [markWritten_not_running hne, finishCycle_not_running hne]
    have hclear : u.redraw = false := by rw [hredraw, beginCycle_redraw, hinv.redrawClear]
    have hfetch : u.fetchWord = memFetch u.mem u.fetchAddr.toNat := by rw [hword, haddr, hmem, beginCycle_mem]
    have hnext : u.pc = nextPc u.fetchAddr := by rw [hpc, beginCycle_pc, haddr]
    rcases hend with ⟨x, rfl, hw⟩ | ⟨f, hf⟩
    · refine blockInv_waiting hu hclear hw ?_ hfetch hnext ?_
      · rw [k.lastTickMs]
        exact beginCycle_lastTickMs_ne_none s
      · rw [k.cfg, beginCycle_cfg, hword]
        exact hdecode
    · rw [← k.fetchWord, ← k.fetchAddr] at hf
      exact blockInv_faulted hu hclear hf (by rw [haddr]; exact hinv.pcInRange) hfetch hnext

/-- The fault of an invalid word keeps the invariant: it is raised right after the fetch. -/
theorem blockInv_invalidWord {s : State} (hinv : BlockInv s) :
    BlockInv (raiseFault .runtimeDispatchError (beginCycle s)) := by
  obtain ⟨hmem, hpc, hstack, htick, hmarks⟩ := cycleInv_beginCycle hinv.cycleInv
  refine blockInv_faulted (k := .runtimeDispatchError) ⟨hmem, hpc, hstack, htick, hmarks⟩ ?_ rfl ?_ ?_ ?_
  · simp [hinv.redrawClear]
  · simpa using hinv.pcInRange
  · simp
  · simp

/-- A further poll of LD Vx, K keeps the invariant: a key completes the cycle, and without one the wait goes on. -/
theorem blockInv_poll {s : State} {x : Reg} (hinv : BlockInv s) (hrun : s.run = .waitingKey x) :
    BlockInv (finishCycle (markWritten (.ldVxK x) (pollKey x (clearPorts s)))) := by
  have hpoll : CycleInv (pollKey x (clearPorts s)) :=
    cycleInv_pollKey x ⟨hinv.memory, hinv.pcInRange, hinv.stackBounded, hinv.tickInPast, hinv.marks⟩
  obtain ⟨hstarted, hword, hpc, hdecode⟩ := hinv.waiting x hrun
  rcases pollKey_cases x (clearPorts s) with ⟨k, -, e⟩ | ⟨-, e⟩
  · have hrun' : (pollKey x (clearPorts s)).run = .running := by rw [e]
    exact blockInv_finishCycle ((markWritten_run _ _).trans hrun') (cycleInv_markWritten hpoll)
  · have hwait : (pollKey x (clearPorts s)).run ≠ .running := by rw [e]; nofun
    rw [markWritten_not_running hwait, finishCycle_not_running hwait]
    rw [e] at hpoll ⊢
    exact blockInv_waiting hpoll hinv.redrawClear rfl hstarted hword hpc hdecode

/-! ### The host's controls -/

/-- A reset discards all that the invariant is about, so nothing is assumed of the state before it. -/
theorem blockInv_resetOf (s : State) : BlockInv (resetOf s) where
  memory := wf_resetMemory s.cfg
  pcInRange := show (0x200#16).toNat < 4096 by decide
  stackBounded := fun _ _ => Nat.zero_le _
  redrawClear := rfl
  tickInPast := nofun
  faultRecord := nofun
  waiting := nofun
  marks := fun hz => congrArg resetMarks hz

/-- Bytes stored into a Running block keep the invariant: no fault record and no key wait is there to name memory. -/
theorem blockInv_storeBytes {s : State} (hinv : BlockInv s) (hrun : s.run = .running) (a : Nat) (bs : List Byte) :
    BlockInv (storeBytes s a bs) := by
  refine ⟨wf_memWriteList bs a hinv.memory, hinv.pcInRange, hinv.stackBounded, hinv.redrawClear, hinv.tickInPast,
    fun r hr => ?_, fun x hx => ?_, hinv.marks⟩
  · cases hrun.symm.trans hr
  · cases hrun.symm.trans hx

theorem blockInv_stopped {s : State} (hinv : BlockInv s) : BlockInv { s with run := .stopped } :=
  ⟨hinv.memory, hinv.pcInRange, hinv.stackBounded, hinv.redrawClear, hinv.tickInPast, nofun, nofun, hinv.marks⟩

/-! ### The obligations -/

/-- Settles O5: each of the three ways a step goes on (`step_next_cases`) keeps the invariant. -/
theorem stepKeepsInvariant : Obligations.StepKeepsInvariant := by
  intro s t hinv h
  rcases step_next_cases h with ⟨i, u, hrun, hdecode, -, he, rfl⟩ | ⟨-, -, rfl⟩ | ⟨x, hrun, rfl⟩
  · exact blockInv_dispatch hinv hrun hdecode he
  · exact blockInv_invalidWord hinv
  · exact blockInv_poll hinv hrun

/-- Settles O4: `State.reset` is the reset of its own configuration and environment (`resetOf_reset`). -/
theorem invariantHoldsAtReset : Obligations.InvariantHoldsAtReset :=
  ⟨resetOf_reset ▸ blockInv_resetOf State.reset, blockInv_resetOf⟩

/-- Settles O6: a stop replaces the run state, a reset discards everything, and a load or a reload stores bytes into a Running
block. -/
theorem hostControlsKeepInvariant : Obligations.HostControlsKeepInvariant := by
  rintro s t rom hinv (h | h | h | h)
  · obtain ⟨-, rfl⟩ := hostStop_ok h
    exact blockInv_stopped hinv
  · obtain ⟨-, rfl⟩ := hostReset_ok h
    exact blockInv_resetOf s
  · obtain ⟨hrun, bytes, -, -, rfl⟩ := loadRom_ok h
    exact blockInv_storeBytes hinv hrun 0x200 bytes
  · obtain ⟨-, bytes, -, -, rfl⟩ := hostReload_ok h
    exact blockInv_storeBytes (blockInv_resetOf s) rfl 0x200 bytes

/-- Settles O7, by induction on the run: O4 at its start, O5 for its steps and O6 for the host's controls. -/
theorem reachableStatesMeetInvariant : Obligations.ReachableStatesMeetInvariant := by
  intro s hs
  induction hs with
  | reset s => exact blockInv_resetOf s
  | step _ h ih => exact stepKeepsInvariant _ _ ih h
  | stop _ h ih => exact hostControlsKeepInvariant _ _ none ih (.inl h)
  | hostReset _ h ih => exact hostControlsKeepInvariant _ _ none ih (.inr (.inl h))
  | load rom _ h ih => exact hostControlsKeepInvariant _ _ rom ih (.inr (.inr (.inl h)))
  | reload rom _ h ih => exact hostControlsKeepInvariant _ _ rom ih (.inr (.inr (.inr h)))

end Sys2Proof.Machine

/-! SUPPORT. The decoder and the encoder against each other (30_encoding.md): a word is put together again from its fields, so
that each family's words decode to what encodes back to them. -/

namespace Sys2Proof.Machine

open Sys2Proof.Laws.MatchesRow (formatXS_fixed)

/-! ### A word from its fields -/

theorem formatA_of_fields {w : Word} {op : BitVec 4} (h : (fieldOp w).toNat = op.toNat) :
    formatA op (fieldNnn w) = w := by
  apply BitVec.eq_of_toNat_eq
  rw [formatA_toNat, ← h, fieldOp_toNat, fieldNnn_toNat]
  omega

theorem formatXK_of_fields {w : Word} {op : BitVec 4} (h : (fieldOp w).toNat = op.toNat) :
    formatXK op (fieldX w) (fieldKk w) = w := by
  apply BitVec.eq_of_toNat_eq
  rw [formatXK_toNat, ← h, fieldOp_toNat, fieldX_val, fieldKk_toNat]
  omega

theorem formatXYN_of_fields {w : Word} {op : BitVec 4} (h : (fieldOp w).toNat = op.toNat) :
    formatXYN op (fieldX w) (fieldY w) (fieldN w) = w := by
  apply BitVec.eq_of_toNat_eq
  rw [formatXYN_toNat, ← h, fieldOp_toNat, fieldX_val, fieldY_val, fieldN_val]
  omega

/-- The low byte of the address field is the key byte of family 0. -/
theorem setWidth_fieldNnn (w : Word) : (fieldNnn w).setWidth 8 = fieldKk w := by
  apply BitVec.eq_of_toNat_eq
  rw [BitVec.toNat_setWidth, fieldNnn_toNat, fieldKk_toNat]
  omega

/-! ### The canonical word (assumption log 13) -/

theorem formatXYN_clearLowNibble (op : BitVec 4) (x y : Reg) (n : Fin 16) :
    formatXYN op x y n &&& 0xFFF0 = formatXYN op x y 0 := by
  apply BitVec.eq_of_getLsbD_eq
  intro k hk
  simp only [formatXYN, nibble, BitVec.getLsbD_and, BitVec.getLsbD_append]
  interval_cases k <;> simp

/-- Outside the families 0, 5 and 9 no nibble is ignored. -/
theorem canonicalWord_of_op {w : Word} (h0 : (fieldOp w).toNat ≠ 0) (h5 : (fieldOp w).toNat ≠ 5)
    (h9 : (fieldOp w).toNat ≠ 9) : canonicalWord w = w := by
  rw [fieldOp_toNat] at h0 h5 h9
  simp [canonicalWord, h0, h5, h9]

/-- CLS and RET ignore nibble 2. -/
theorem canonicalWord_clsRet {w : Word} {kk : Byte} (h0 : (fieldOp w).toNat = 0) (hkk : fieldKk w = kk)
    (hkey : kk = 0xE0 ∨ kk = 0xEE) : canonicalWord w = formatXK 0x0 0 kk := by
  have hop : w.toNat / 4096 = 0 := (fieldOp_toNat w).symm.trans h0
  have hlow : w.toNat % 256 = 0xE0 ∨ w.toNat % 256 = 0xEE := by
    rw [← fieldKk_toNat, hkk]
    rcases hkey with rfl | rfl
    · exact .inl rfl
    · exact .inr rfl
  calc canonicalWord w
    _ = w &&& 0xF0FF := if_pos ⟨hop, hlow⟩
    _ = formatXK 0x0 (fieldX w) (fieldKk w) &&& 0xF0FF := by rw [formatXK_of_fields (op := 0x0) h0]
    _ = formatXK 0x0 0 kk := by rw [formatXS_fixed, hkk]

/-- SYS has no ignored nibble. -/
theorem canonicalWord_sys {w : Word} (h0 : (fieldOp w).toNat = 0) (hcls : fieldKk w ≠ 0xE0) (hret : fieldKk w ≠ 0xEE) :
    canonicalWord w = w := by
  have hop : w.toNat / 4096 = 0 := (fieldOp_toNat w).symm.trans h0
  have hE0 : w.toNat % 256 ≠ 0xE0 := fun h => hcls (BitVec.eq_of_toNat_eq ((fieldKk_toNat w).trans h))
  have hEE : w.toNat % 256 ≠ 0xEE := fun h => hret (BitVec.eq_of_toNat_eq ((fieldKk_toNat w).trans h))
  simp [canonicalWord, hop, hE0, hEE]

/-- SE Vx, Vy and SNE Vx, Vy ignore the low nibble. -/
theorem canonicalWord_skipVxVy {w : Word} {op : BitVec 4} (h : (fieldOp w).toNat = op.toNat) (hop : op = 5 ∨ op = 9) :
    canonicalWord w = formatXYN op (fieldX w) (fieldY w) 0 := by
  have hdiv : w.toNat / 4096 = 5 ∨ w.toNat / 4096 = 9 := by
    rw [← fieldOp_toNat, h]
    rcases hop with rfl | rfl
    · exact .inl rfl
    · exact .inr rfl
  have hne : ¬(w.toNat / 4096 = 0 ∧ (w.toNat % 256 = 0xE0 ∨ w.toNat % 256 = 0xEE)) := by omega
  calc canonicalWord w
    _ = w &&& 0xFFF0 := (if_neg hne).trans (if_pos hdiv)
    _ = formatXYN op (fieldX w) (fieldY w) (fieldN w) &&& 0xFFF0 := by rw [formatXYN_of_fields h]
    _ = formatXYN op (fieldX w) (fieldY w) 0 := formatXYN_clearLowNibble op _ _ _

/-! ### What each family decodes to encodes back -/

/-- The instruction is well-formed, the configuration admits it, and its encoding is the word. -/
def EncodesTo (cfg : Config) (i : Instr) (w : Word) : Prop := i.wf = true ∧ cfg.admits i = true ∧ encode i = w

theorem encodesTo_family0 {cfg : Config} {w : Word} {i : Instr} (h0 : (fieldOp w).toNat = 0)
    (h : decodeFamily0 cfg (fieldKk w) (fieldNnn w) = .ok i) : EncodesTo cfg i (canonicalWord w) := by
  unfold decodeFamily0 at h
  split at h
  · next hkk =>
    cases h
    exact ⟨rfl, rfl, (canonicalWord_clsRet h0 hkk (.inl rfl)).symm⟩
  · next hcls =>
    split at h
    · next hkk =>
      cases h
      exact ⟨rfl, rfl, (canonicalWord_clsRet h0 hkk (.inr rfl)).symm⟩
    · next hret =>
      split at h
      · next hcfg =>
        cases h
        rw [canonicalWord_sys h0 hcls hret]
        exact ⟨by simp [Instr.wf, family0Key, setWidth_fieldNnn, hcls, hret], by simp [Config.admits, hcfg],
          formatA_of_fields (op := 0x0) h0⟩
      · cases h

/-- The low nibble selects the operation of family 8, and a shift's y nibble its one-operand form. -/
theorem encodesTo_family8 {cfg : Config} {x y : Reg} {n : Fin 16} {i : Instr} (h : decodeFamily8 x y n = .ok i) :
    EncodesTo cfg i (formatXYN 0x8 x y n) := by
  unfold decodeFamily8 at h
  split at h
  case h_10 => cases h
  case h_7 hn =>
    obtain rfl : n = 0x6 := Fin.ext hn
    cases h
    split
    · next hy => exact ⟨rfl, rfl, hy ▸ rfl⟩
    · next hy => exact ⟨bne_iff_ne.mpr hy, rfl, rfl⟩
  case h_9 hn =>
    obtain rfl : n = 0xE := Fin.ext hn
    cases h
    split
    · next hy => exact ⟨rfl, rfl, hy ▸ rfl⟩
    · next hy => exact ⟨bne_iff_ne.mpr hy, rfl, rfl⟩
  all_goals
    next hn =>
    cases h
    refine ⟨rfl, rfl, ?_⟩
    rw [show n = ⟨_, by decide⟩ from Fin.ext hn]
    rfl

theorem encodesTo_familyE {cfg : Config} {x : Reg} {kk : Byte} {i : Instr} (h : decodeFamilyE cfg x kk = .ok i) :
    EncodesTo cfg i (formatXK 0xE x kk) := by
  unfold decodeFamilyE at h
  split at h
  · cases h
  · next hcfg =>
    split at h
    · next hkk =>
      cases h
      exact ⟨rfl, beq_iff_eq.mpr hcfg, hkk ▸ rfl⟩
    · split at h
      · next hkk =>
        cases h
        exact ⟨rfl, beq_iff_eq.mpr hcfg, hkk ▸ rfl⟩
      · cases h

theorem encodesTo_familyF {cfg : Config} {x : Reg} {kk : Byte} {i : Instr} (h : decodeFamilyF x kk = .ok i) :
    EncodesTo cfg i (formatXK 0xF x kk) := by
  have hself : BitVec.ofNat 8 kk.toNat = kk := by rw [BitVec.ofNat_toNat, BitVec.setWidth_eq]
  unfold decodeFamilyF at h
  split at h
  case h_10 => cases h
  all_goals
    next hkk =>
    cases h
    rw [← hself, hkk]
    exact ⟨rfl, rfl, rfl⟩

/-- The other families have one operation each, whatever its fields hold. -/
theorem encodesTo_decode {cfg : Config} {w : Word} {i : Instr} (h : decode cfg w = .ok i) :
    EncodesTo cfg i (canonicalWord w) := by
  unfold decode at h
  split at h
  case h_1 hop => exact encodesTo_family0 hop h
  case h_6 hop =>
    cases h
    exact ⟨rfl, rfl, (canonicalWord_skipVxVy (op := 0x5) hop (.inl rfl)).symm⟩
  case h_10 hop =>
    cases h
    exact ⟨rfl, rfl, (canonicalWord_skipVxVy (op := 0x9) hop (.inr rfl)).symm⟩
  all_goals
    rw [canonicalWord_of_op (by omega) (by omega) (by omega)]
  case h_2 hop | h_3 hop | h_11 hop | h_12 hop =>
    cases h
    exact ⟨rfl, rfl, formatA_of_fields hop⟩
  case h_4 hop | h_5 hop | h_7 hop | h_8 hop | h_13 hop =>
    cases h
    exact ⟨rfl, rfl, formatXK_of_fields hop⟩
  case h_14 hop =>
    cases h
    exact ⟨rfl, rfl, formatXYN_of_fields hop⟩
  case h_9 hop => exact formatXYN_of_fields (op := 0x8) hop ▸ encodesTo_family8 h
  case h_15 hop => exact formatXK_of_fields (op := 0xE) hop ▸ encodesTo_familyE h
  case h_16 =>
    have hlt : (fieldOp w).toNat < 16 := (fieldOp w).isLt
    have hop : (fieldOp w).toNat = 0xF := by
      simp only [imp_false] at *
      omega
    exact formatXK_of_fields (op := 0xF) hop ▸ encodesTo_familyF h

/-! ### The invalid words (30_encoding.md R79) -/

theorem decodeFamily0_ne_invalid {cfg : Config} (kk : Byte) (nnn : Addr) (hcfg : cfg.family0Other = .sys) :
    decodeFamily0 cfg kk nnn ≠ .error .invalid := by
  unfold decodeFamily0
  rw [hcfg]
  split
  · nofun
  · split <;> nofun

theorem decodeFamily8_invalid_iff (x y : Reg) (n : Fin 16) :
    decodeFamily8 x y n = .error .invalid ↔ n.val ∈ [0x8, 0x9, 0xA, 0xB, 0xC, 0xD, 0xF] := by
  fin_cases n <;> simp [decodeFamily8]

theorem decodeFamilyE_invalid_iff {cfg : Config} (x : Reg) (kk : Byte) (hcfg : cfg.keyDispatch = .exact) :
    decodeFamilyE cfg x kk = .error .invalid ↔ kk.toNat ∉ [0x9E, 0xA1] := by
  have hkey (b : Byte) : kk = b ↔ kk.toNat = b.toNat := BitVec.toNat_inj.symm
  unfold decodeFamilyE
  simp only [hcfg, hkey]
  split
  · next h => simp_all
  · split <;> simp_all

theorem decodeFamilyF_invalid_iff (x : Reg) (kk : Byte) :
    decodeFamilyF x kk = .error .invalid ↔
      kk.toNat ∉ [0x07, 0x0A, 0x15, 0x18, 0x1E, 0x29, 0x33, 0x55, 0x65] := by
  unfold decodeFamilyF
  split <;> simp_all

/-! ### The shift words (30_encoding.md R91; assumption log 12) -/

theorem decodes_shrVxVy (x : Reg) {y : Reg} (hy : y ≠ 0) : Decodes (formatXYN 0x8 x y 0x6) (.shrVxVy x y) :=
  decodes_family8 (by simp [decodeFamily8, hy])

theorem decodes_shlVxVy (x : Reg) {y : Reg} (hy : y ≠ 0) : Decodes (formatXYN 0x8 x y 0xE) (.shlVxVy x y) :=
  decodes_family8 (by simp [decodeFamily8, hy])

theorem decodes_shrVx (x : Reg) : Decodes (formatXYN 0x8 x 0 0x6) (.shrVx x) := decodes_family8 rfl

theorem decodes_shlVx (x : Reg) : Decodes (formatXYN 0x8 x 0 0xE) (.shlVx x) := decodes_family8 rfl

/-! ### The obligations -/

/-- Settles O10: the words of each row are decoded as that row's instruction (`Decodes`); what well-formedness and the
configuration's admission say is used for SYS, the key skips and the two-operand shifts. -/
theorem decodeOfEncode : Obligations.DecodeOfEncode := by
  intro cfg i hwf hadm
  cases i with
  | sys nnn =>
    have hkey : nnn.setWidth 8 ≠ 0xE0#8 ∧ nnn.setWidth 8 ≠ 0xEE#8 := by simpa [Instr.wf, family0Key] using hwf
    exact decode_sys (beq_iff_eq.mp hadm) hkey.1 hkey.2
  | skp x => exact decode_skp x (beq_iff_eq.mp hadm)
  | sknp x => exact decode_sknp x (beq_iff_eq.mp hadm)
  | shrVxVy x y => exact decodes_shrVxVy x (bne_iff_ne.mp hwf) cfg
  | shlVxVy x y => exact decodes_shlVxVy x (bne_iff_ne.mp hwf) cfg
  | cls => exact decodes_cls 0 cfg
  | ret => exact decodes_ret 0 cfg
  | jp nnn => exact decodes_jp nnn cfg
  | call nnn => exact decodes_call nnn cfg
  | jpV0 nnn => exact decodes_jpV0 nnn cfg
  | ldINnn nnn => exact decodes_ldINnn nnn cfg
  | seVxKk x kk => exact decodes_seVxKk x kk cfg
  | sneVxKk x kk => exact decodes_sneVxKk x kk cfg
  | ldVxKk x kk => exact decodes_ldVxKk x kk cfg
  | addVxKk x kk => exact decodes_addVxKk x kk cfg
  | rnd x kk => exact decodes_rnd x kk cfg
  | seVxVy x y => exact decodes_seVxVy x y 0 cfg
  | sneVxVy x y => exact decodes_sneVxVy x y 0 cfg
  | drw x y n => exact decodes_drw x y n cfg
  | ldVxVy | orVxVy | andVxVy | xorVxVy | addVxVy | subVxVy | subnVxVy =>
    exact decodes_family8 rfl cfg
  | shrVx x => exact decodes_shrVx x cfg
  | shlVx x => exact decodes_shlVx x cfg
  | ldVxDt | ldVxK | ldDtVx | ldStVx | addIVx | ldFVx | ldBVx | ldMemVx | ldVxMem => exact decodes_familyF rfl cfg

/-- Settles O11, family by family. -/
theorem encodeOfDecode : Obligations.EncodeOfDecode := fun _ _ _ h => encodesTo_decode h

/-- Settles O12: only the families 8, E and F have invalid words, each as its `_invalid_iff` lemma says; under the spec's
parameters every other word of family 0 is SYS, and the key skips are keyed exactly. -/
theorem invalidWordsAllAndOnly : Obligations.InvalidWordsAllAndOnly := by
  intro w
  rw [← fieldOp_toNat, ← fieldN_val, ← fieldKk_toNat]
  unfold decode
  split
  case h_1 hop => simp [hop, decodeFamily0_ne_invalid (cfg := specConfig) _ _ rfl]
  case h_9 hop => simp [hop, decodeFamily8_invalid_iff]
  case h_15 hop => simp [hop, decodeFamilyE_invalid_iff (cfg := specConfig) _ _ rfl]
  case h_16 =>
    have hlt : (fieldOp w).toNat < 16 := (fieldOp w).isLt
    have hop : (fieldOp w).toNat = 0xF := by
      simp only [imp_false] at *
      omega
    simp [hop, decodeFamilyF_invalid_iff]
  all_goals
    next hop => simp [hop]

/-- Settles O13: each word is looked up, field by field. -/
theorem writtenWordsDecode : Obligations.WrittenWordsDecode := by
  unfold Obligations.WrittenWordsDecode
  decide

end Sys2Proof.Machine

/-! SUPPORT. What every instruction leaves unchanged, from whatever state it is run (10_state.md R33, 20_memory.md R58), said once
(`exec_frame`): each element of the state against the table of its writers. -/

namespace Sys2Proof.Machine

/-! ### The frame of an instruction -/

/-- What `i`, which is run in `s` and answers `t`, may have changed: each element only if the table of its writers has `i`. A field
that is not given is proved by computation: the operation does not touch that element. -/
structure ExecFrame (i : Instr) (s t : State) : Prop where
  v : ∀ r, destV i r = false → getV t r = getV s r := by exact fun _ _ => rfl
  index : writesI i = false → t.i = s.i := by exact fun _ => rfl
  pc : writesPc i = false → t.pc = s.pc := by exact fun _ => rfl
  stack : writesStack i = false → t.stack = s.stack := by exact fun _ => rfl
  redraw : setsRedraw i = false → t.redraw = s.redraw := by exact fun _ => rfl
  dt : writesDt i = false → t.dt = s.dt := by exact fun _ => rfl
  st : writesSt i = false → t.st = s.st := by exact fun _ => rfl
  mem : writesMem i = false → t.mem = s.mem := by exact fun _ => rfl
  memOutside : setsRedraw i = true → ∀ a, a % 4096 < 0xF00 → memRead t.mem a = memRead s.mem a := by
    exact fun _ _ _ => rfl
  env : drawsInput i = false → t.env = s.env := by exact fun _ => rfl
  nowMs : t.env.nowMs = s.env.nowMs := by exact rfl
  run : t.run = s.run ∨ (∃ nnn, i = .call nnn) ∨ i = .ret ∨ ∃ x, i = .ldVxK x := by exact .inl rfl
  /-- Every other element but the run state and the fault port stays. -/
  rest : t = { s with v := t.v, i := t.i, pc := t.pc, dt := t.dt, st := t.st, stack := t.stack, redraw := t.redraw,
                      run := t.run, mem := t.mem, faultOut := t.faultOut, env := t.env } := by exact rfl

section
variable {i : Instr} {s : State}

/-- A register that is no destination is not the one that a destination's write goes to. -/
theorem ne_of_destV {r x : Reg} (hr : destV i r = false) (hx : destV i x = true) : r ≠ x := by
  rintro rfl
  exact Bool.false_ne_true (hr.symm.trans hx)

theorem onlyV_frame {t : State} (h : OnlyV s t) (hv : ∀ r, destV i r = false → getV t r = getV s r) :
    ExecFrame i s t := by
  rw [h] at hv ⊢
  exact { v := hv }

theorem setV_frame {x : Reg} (b : Byte) (hx : destV i x = true) : ExecFrame i s (setV s x b) :=
  onlyV_frame rfl fun r hr => (getV_setV s x b r).trans (if_neg (ne_of_destV hr hx))

theorem setVFlag_frame {x : Reg} (b f : Byte) (hx : destV i x = true) (hvf : destV i 15 = true) :
    ExecFrame i s (setVFlag s x b f) :=
  onlyV_frame rfl fun r hr => by rw [getV_setVFlag, if_neg (ne_of_destV hr hvf), if_neg (ne_of_destV hr hx)]

theorem setI_frame (w : Word) (h : writesI i = true) : ExecFrame i s (setI s w) where
  index := by simp [h]

theorem setPc_frame (a : Word) (h : writesPc i = true) : ExecFrame i s (setPc s a) where
  pc := by simp [h]

theorem skipIf_frame (c : Bool) (h : writesPc i = true) : ExecFrame i s (skipIf c s) := by
  rw [skipIf_eq]
  exact { pc := by simp [h] }

theorem skipIf_afterKey_frame (c : Bool) (h : writesPc i = true) (hd : drawsInput i = true) :
    ExecFrame i s { skipIf c s with env := afterKey s.env } := by
  rw [skipIf_eq]
  exact { pc := by simp [h], env := by simp [hd], nowMs := afterKey_nowMs s.env }

theorem storeBytes_frame (a : Nat) (bs : List Byte) (h : writesMem i = true) (hr : setsRedraw i = false) :
    ExecFrame i s (storeBytes s a bs) where
  mem := by simp [h]
  memOutside := by simp [hr]

end

section
variable (s : State)

theorem clearScreen_frame : ExecFrame .cls s (clearScreen s) where
  redraw := nofun
  mem := nofun
  memOutside _ a ha := (memRead_clearFramebuffer s.mem a).trans (if_neg (Nat.not_le_of_lt ha))

theorem callTo_frame (nnn : Addr) (target : Word) : ExecFrame (.call nnn) s (callTo target s) := by
  rcases callTo_cases target s with ⟨-, e⟩ | ⟨-, e⟩ <;> rw [e]
  · exact { run := .inr (.inl ⟨nnn, rfl⟩) }
  · exact { pc := nofun, stack := nofun }

theorem returnFrom_frame : ExecFrame .ret s (returnFrom s) := by
  rcases returnFrom_cases s with ⟨-, e⟩ | ⟨l, a, -, e⟩ <;> rw [e]
  · exact { run := .inr (.inr (.inl rfl)) }
  · exact { pc := nofun, stack := nofun }

theorem pollKey_frame (x : Reg) : ExecFrame (.ldVxK x) s (pollKey x s) := by
  have hrun : ∃ y, Instr.ldVxK x = .ldVxK y := ⟨x, rfl⟩
  rcases pollKey_cases x s with ⟨k, -, e⟩ | ⟨-, e⟩ <;> rw [e]
  · have hx : destV (.ldVxK x) x = true := beq_self_eq_true x
    exact { v := (setV_frame (s := s) (BitVec.ofNat 8 k.val) hx).v, env := nofun, nowMs := afterKey_nowMs s.env,
            run := .inr (.inr (.inr hrun)) }
  · exact { env := nofun, nowMs := afterKey_nowMs s.env, run := .inr (.inr (.inr hrun)) }

theorem loadRegs_frame (x : Reg) (a : Nat) : ExecFrame (.ldVxMem x) s (loadRegs s a (x.val + 1)) := by
  refine onlyV_frame (onlyV_loadRegs s a _) fun r hr => ?_
  have hgt : ¬ r.val < x.val + 1 := fun h => of_decide_eq_false hr (Nat.le_of_lt_succ h)
  rw [getV_loadRegs, if_neg hgt]

/-- RND's draw goes to its destination, and the environment moves on. -/
theorem rnd_frame (x : Reg) (kk b : Byte) : ExecFrame (.rnd x kk) s { setV s x b with env := afterRand s.env } :=
  have hx : destV (.rnd x kk) x = true := beq_self_eq_true x
  { v := (setV_frame (s := s) b hx).v, env := nofun, nowMs := afterRand_nowMs s.env }

/-- A draw changes VF, the framebuffer and the redraw flag. -/
theorem drw_frame (x y : Reg) (n : Fin 16) (f : Byte) :
    ExecFrame (.drw x y n) s { setV { s with mem := (drawOf x y n s).mem } vf f with redraw := true } where
  v := (setV_frame (s := s) f (rfl : destV (.drw x y n) vf = true)).v
  redraw := nofun
  mem := nofun
  memOutside _ _ ha := memRead_drawSprite_outside _ _ _ _ s.mem ha

end

theorem frame_of_eq {i : Instr} {s t u : State} (e : exec i s = .next u) (k : ExecFrame i s u) (h : exec i s = .next t) :
    ExecFrame i s t := by
  rw [e] at h
  injection h with h
  exact h ▸ k

/-- Each instruction is one of the operations above, and its table entries are those that the operation needs. -/
theorem exec_frame {i : Instr} {s t : State} (h : exec i s = .next t) : ExecFrame i s t := by
  cases i with
  | sys nnn => exact frame_of_eq (exec_sys nnn s) { } h
  | cls => exact frame_of_eq (exec_cls s) (clearScreen_frame s) h
  | ret => exact frame_of_eq (exec_ret s) (returnFrom_frame s) h
  | call nnn => exact frame_of_eq (exec_call nnn s) (callTo_frame s nnn _) h
  | jp nnn => exact frame_of_eq (exec_jp nnn s) (setPc_frame _ rfl) h
  | jpV0 nnn => exact frame_of_eq (exec_jpV0 nnn s) (setPc_frame _ rfl) h
  | seVxKk x kk => exact frame_of_eq (exec_seVxKk x kk s) (skipIf_frame _ rfl) h
  | sneVxKk x kk => exact frame_of_eq (exec_sneVxKk x kk s) (skipIf_frame _ rfl) h
  | seVxVy x y => exact frame_of_eq (exec_seVxVy x y s) (skipIf_frame _ rfl) h
  | sneVxVy x y => exact frame_of_eq (exec_sneVxVy x y s) (skipIf_frame _ rfl) h
  | skp x => exact frame_of_eq (exec_skp x s) (skipIf_afterKey_frame _ rfl rfl) h
  | sknp x => exact frame_of_eq (exec_sknp x s) (skipIf_afterKey_frame _ rfl rfl) h
  | ldVxKk x kk => exact frame_of_eq (exec_ldVxKk x kk s) (setV_frame _ (beq_self_eq_true x)) h
  | addVxKk x kk => exact frame_of_eq (exec_addVxKk x kk s) (setV_frame _ (beq_self_eq_true x)) h
  | ldVxVy x y => exact frame_of_eq (exec_ldVxVy x y s) (setV_frame _ (beq_self_eq_true x)) h
  | orVxVy x y => exact frame_of_eq (exec_orVxVy x y s) (setV_frame _ (beq_self_eq_true x)) h
  | andVxVy x y => exact frame_of_eq (exec_andVxVy x y s) (setV_frame _ (beq_self_eq_true x)) h
  | xorVxVy x y => exact frame_of_eq (exec_xorVxVy x y s) (setV_frame _ (beq_self_eq_true x)) h
  | ldVxDt x => exact frame_of_eq (exec_ldVxDt x s) (setV_frame _ (beq_self_eq_true x)) h
  | addVxVy x y => exact frame_of_eq (exec_addVxVy x y s) (setVFlag_frame _ _ (by simp [destV]) (by simp [destV])) h
  | subVxVy x y => exact frame_of_eq (exec_subVxVy x y s) (setVFlag_frame _ _ (by simp [destV]) (by simp [destV])) h
  | subnVxVy x y => exact frame_of_eq (exec_subnVxVy x y s) (setVFlag_frame _ _ (by simp [destV]) (by simp [destV])) h
  | shrVxVy x y => exact frame_of_eq (exec_shrVxVy x y s) (setVFlag_frame _ _ (by simp [destV]) (by simp [destV])) h
  | shlVxVy x y => exact frame_of_eq (exec_shlVxVy x y s) (setVFlag_frame _ _ (by simp [destV]) (by simp [destV])) h
  | shrVx x => exact frame_of_eq (exec_shrVx x s) (setVFlag_frame _ _ (by simp [destV]) (by simp [destV])) h
  | shlVx x => exact frame_of_eq (exec_shlVx x s) (setVFlag_frame _ _ (by simp [destV]) (by simp [destV])) h
  | rnd x kk => exact frame_of_eq (exec_rnd x kk s) (rnd_frame s x kk _) h
  | ldINnn nnn => exact frame_of_eq (exec_ldINnn nnn s) (setI_frame _ rfl) h
  | addIVx x => exact frame_of_eq (exec_addIVx x s) (setI_frame _ rfl) h
  | ldFVx x => exact frame_of_eq (exec_ldFVx x s) (setI_frame _ rfl) h
  | drw x y n => exact frame_of_eq (exec_drw x y n s) (drw_frame s x y n _) h
  | ldDtVx x => exact frame_of_eq (exec_ldDtVx x s) { dt := nofun } h
  | ldStVx x => exact frame_of_eq (exec_ldStVx x s) { st := nofun } h
  | ldBVx x => exact frame_of_eq (exec_ldBVx x s) (storeBytes_frame _ _ rfl rfl) h
  | ldMemVx x => exact frame_of_eq (exec_ldMemVx x s) (storeBytes_frame _ _ rfl rfl) h
  | ldVxMem x => exact frame_of_eq (exec_ldVxMem x s) (loadRegs_frame s x _) h
  | ldVxK x => exact frame_of_eq (exec_ldVxK x s) (pollKey_frame s x) h

/-! ### The obligations -/

/-- Settles O53: each clause is a field of `exec_frame`. -/
theorem elementsWrittenOnlyByTheirWriters : Obligations.ElementsWrittenOnlyByTheirWriters :=
  fun _ _ _ h =>
    have k := exec_frame h
    ⟨k.index, k.pc, k.stack, k.redraw, k.dt, k.st, k.mem, k.memOutside⟩

/-- Settles O54: the field of `exec_frame` for the V registers. -/
theorem registersWrittenOnlyAsDestination : Obligations.RegistersWrittenOnlyAsDestination :=
  fun _ _ _ r h => (exec_frame h).v r

/-- Settles O55: `exec_frame` names every element that an instruction may change, and these are none of them. -/
theorem bookkeepingNotWrittenByInstructions : Obligations.BookkeepingNotWrittenByInstructions := by
  intro i s t h
  have k := exec_frame h
  refine ⟨?_, ?_, ?_, ?_, ?_, ?_, ?_, k.env⟩ <;> rw [k.rest]

end Sys2Proof.Machine

/-! SUPPORT. One step whole (30_encoding.md R94, 60_exceptions.md): what it can answer from each run state, what it does to the
timers and the clock, and the parts of the cycle around the instruction. -/

namespace Sys2Proof.Machine

/-! ### Before the instruction -/

theorem beginCycle_of_started {s : State} {l : Int} (h : s.lastTickMs = some l) :
    (beginCycle s).lastTickMs = some l ∧ (beginCycle s).env = s.env := by
  rw [beginCycle, runStart_some (s := clearPorts s) h]
  exact ⟨h, rfl⟩

theorem beginCycle_of_not_started {s : State} (h : s.lastTickMs = none) :
    (beginCycle s).lastTickMs = some (clockAnswer s.env) ∧ (beginCycle s).env = afterClock s.env := by
  rw [beginCycle, runStart_none (s := clearPorts s) h]
  exact ⟨rfl, rfl⟩

theorem nowMs_le_beginCycle (s : State) : s.env.nowMs ≤ (beginCycle s).env.nowMs := by
  cases h : s.lastTickMs with
  | some l => rw [(beginCycle_of_started h).2]
  | none =>
    rw [(beginCycle_of_not_started h).2, afterClock_nowMs]
    exact nowMs_le_clockAnswer s.env

/-! ### After the instruction -/

@[simp] theorem finishCycle_cfg (s : State) : (finishCycle s).cfg = s.cfg := by
  by_cases h : s.run = .running
  · rw [finishCycle_running_eq h]
  · rw [finishCycle_not_running h]

theorem nowMs_le_finishCycle (s : State) : s.env.nowMs ≤ (finishCycle s).env.nowMs := by
  by_cases h : s.run = .running
  · rw [finishCycle_running_eq h, afterClock_nowMs]
    exact nowMs_le_clockAnswer s.env
  · rw [finishCycle_not_running h]

/-- Both timers are as they were, or both have lost one, floored at 0. -/
def TimersTickOnce (s t : State) : Prop :=
  (t.dt = s.dt ∧ t.st = s.st) ∨ (t.dt.toNat = s.dt.toNat - 1 ∧ t.st.toNat = s.st.toNat - 1)

theorem timersTickOnce_of_eq {s t : State} (hdt : t.dt = s.dt) (hst : t.st = s.st) : TimersTickOnce s t := .inl ⟨hdt, hst⟩

theorem countdown_false (d : Byte) : countdown false d = d := by
  apply BitVec.eq_of_toNat_eq
  rw [countdown_toNat]
  rfl

theorem countdown_true_toNat (d : Byte) : (countdown true d).toNat = d.toNat - 1 := countdown_toNat true d

theorem timersTickOnce_finishCycle (s : State) : TimersTickOnce s (finishCycle s) := by
  by_cases h : s.run = .running
  · rw [finishCycle_running_eq h]
    cases ticks s
    · exact .inl ⟨countdown_false s.dt, countdown_false s.st⟩
    · exact .inr ⟨countdown_true_toNat s.dt, countdown_true_toNat s.st⟩
  · rw [finishCycle_not_running h]
    exact timersTickOnce_of_eq rfl rfl

/-! ### What a step can answer -/

/-- Every instruction answers a next state. -/
theorem exec_total (i : Instr) (s : State) : ∃ t, exec i s = .next t := by
  cases i <;> exact ⟨_, rfl⟩

theorem decodeFamily0_ne_faithful (cfg : Config) (kk : Byte) (nnn : Addr) :
    decodeFamily0 cfg kk nnn ≠ .error .faithfulKeySkip := by
  unfold decodeFamily0
  split
  · nofun
  · split
    · nofun
    · split <;> nofun

theorem decodeFamily8_ne_faithful (x y : Reg) (n : Fin 16) : decodeFamily8 x y n ≠ .error .faithfulKeySkip := by
  unfold decodeFamily8
  split <;> nofun

theorem decodeFamilyF_ne_faithful (x : Reg) (kk : Byte) : decodeFamilyF x kk ≠ .error .faithfulKeySkip := by
  unfold decodeFamilyF
  split <;> nofun

theorem decodeFamilyE_faithful_iff (cfg : Config) (x : Reg) (kk : Byte) :
    decodeFamilyE cfg x kk = .error .faithfulKeySkip ↔ cfg.keyDispatch = .faithful := by
  unfold decodeFamilyE
  cases cfg.keyDispatch with
  | faithful => simp
  | exact =>
    simp only [reduceCtorEq, iff_false]
    split
    · nofun
    · split <;> nofun

/-- A word is refused exactly if it is one of family E and `KEY_DISPATCH = faithful` (30_encoding.md R76). -/
theorem decode_faithful_iff (cfg : Config) (w : Word) :
    decode cfg w = .error .faithfulKeySkip ↔ cfg.keyDispatch = .faithful ∧ w.toNat / 4096 = 0xE := by
  rw [← fieldOp_toNat]
  unfold decode
  split
  case h_1 hop => simp [hop, decodeFamily0_ne_faithful]
  case h_9 hop => simp [hop, decodeFamily8_ne_faithful]
  case h_15 hop => simp [hop, decodeFamilyE_faithful_iff]
  case h_16 hop => simp [show (fieldOp w).toNat ≠ 0xE from hop, decodeFamilyF_ne_faithful]
  all_goals
    next hop => simp [hop]

theorem step_running_invalid {s : State} (hrun : s.run = .running)
    (hd : decode s.cfg (memFetch s.mem s.pc.toNat) = .error .invalid) :
    step s = .next (raiseFault .runtimeDispatchError (beginCycle s)) := by
  rw [step_running hrun, decodeAndExecute, beginCycle_cfg, beginCycle_fetchWord, hd]

theorem step_running_refused {s : State} (hrun : s.run = .running)
    (hd : decode s.cfg (memFetch s.mem s.pc.toNat) = .error .faithfulKeySkip) :
    step s = .refused (.faithfulKeySkip (memFetch s.mem s.pc.toNat)) := by
  rw [step_running hrun, decodeAndExecute, beginCycle_cfg, beginCycle_fetchWord, hd]

theorem step_running_unwritten {s : State} {i : Instr} (hrun : s.run = .running)
    (hd : decode s.cfg (memFetch s.mem s.pc.toNat) = .ok i) (hr : ReadsBeforeWrite s i) :
    step s = .fault (.unwrittenRead (memFetch s.mem s.pc.toNat) s.pc) := by
  have hu : readsUnwritten i (beginCycle s) = true := by rwa [readsUnwritten_beginCycle, readsUnwritten_iff]
  rw [step_running hrun, decodeAndExecute, beginCycle_cfg, beginCycle_fetchWord, hd]
  exact (executeAndFinish_unwritten hu).trans (by rw [beginCycle_fetchWord, beginCycle_fetchAddr])

theorem step_running_ok {s t : State} {i : Instr} (hrun : s.run = .running)
    (hd : decode s.cfg (memFetch s.mem s.pc.toNat) = .ok i) (hr : ¬ReadsBeforeWrite s i)
    (he : exec i (beginCycle s) = .next t) : step s = .next (finishCycle (markWritten i t)) := by
  have hu : readsUnwritten i (beginCycle s) = false := by
    rwa [readsUnwritten_beginCycle, Bool.eq_false_iff, Ne, readsUnwritten_iff]
  rw [step_running hrun, decodeAndExecute, beginCycle_cfg, beginCycle_fetchWord, hd]
  exact executeAndFinish_next hu he

/-- An instruction that reads a register marked unwritten stands at PC (10_state.md R41). -/
def ReadsUnwrittenAtPc (s : State) : Prop :=
  ∃ i, decode s.cfg (memFetch s.mem s.pc.toNat) = .ok i ∧ ReadsBeforeWrite s i

/-- A word that `KEY_DISPATCH = faithful` refuses stands at PC (30_encoding.md R76). -/
def RefusedAtPc (s : State) : Prop :=
  s.cfg.keyDispatch = .faithful ∧ (memFetch s.mem s.pc.toNat).toNat / 4096 = 0xE

theorem not_refusedAtPc_of_ok {s : State} {i : Instr} (hd : decode s.cfg (memFetch s.mem s.pc.toNat) = .ok i) :
    ¬RefusedAtPc s := by
  rw [RefusedAtPc, ← decode_faithful_iff, hd]
  nofun

theorem not_readsUnwrittenAtPc_of_error {s : State} {r : Reject}
    (hd : decode s.cfg (memFetch s.mem s.pc.toNat) = .error r) : ¬ReadsUnwrittenAtPc s := by
  rintro ⟨i, hi, -⟩
  cases hd.symm.trans hi

/-- What a step from Running answers, with the condition of each case: the stop at the read of an unwritten register, the
refusal, or a next state. -/
theorem step_running_cases {s : State} (hrun : s.run = .running) :
    (ReadsUnwrittenAtPc s ∧ ¬RefusedAtPc s ∧ step s = .fault (.unwrittenRead (memFetch s.mem s.pc.toNat) s.pc)) ∨
    (RefusedAtPc s ∧ ¬ReadsUnwrittenAtPc s ∧ step s = .refused (.faithfulKeySkip (memFetch s.mem s.pc.toNat))) ∨
    (¬ReadsUnwrittenAtPc s ∧ ¬RefusedAtPc s ∧ ∃ t, step s = .next t) := by
  cases hd : decode s.cfg (memFetch s.mem s.pc.toNat) with
  | error r =>
    cases r with
    | faithfulKeySkip =>
      exact .inr (.inl ⟨(decode_faithful_iff _ _).mp hd, not_readsUnwrittenAtPc_of_error hd, step_running_refused hrun hd⟩)
    | invalid =>
      have hne : ¬RefusedAtPc s := by
        rw [RefusedAtPc, ← decode_faithful_iff, hd]
        nofun
      exact .inr (.inr ⟨not_readsUnwrittenAtPc_of_error hd, hne, _, step_running_invalid hrun hd⟩)
  | ok i =>
    by_cases hr : ReadsBeforeWrite s i
    · exact .inl ⟨⟨i, hd, hr⟩, not_refusedAtPc_of_ok hd, step_running_unwritten hrun hd hr⟩
    · have hne : ¬ReadsUnwrittenAtPc s := by
        rintro ⟨j, hj, hrj⟩
        cases hd.symm.trans hj
        exact hr hrj
      obtain ⟨u, hu⟩ := exec_total i (beginCycle s)
      exact .inr (.inr ⟨hne, not_refusedAtPc_of_ok hd, _, step_running_ok hrun hd hr hu⟩)

theorem step_fault_iff (s : State) (f : Fault) :
    step s = .fault f ↔ (∃ r, s.run = .faulted r ∧ f = .halted r) ∨ (s.run = .stopped ∧ f = .stopped) ∨
      (s.run = .running ∧ ReadsUnwrittenAtPc s ∧ f = .unwrittenRead (memFetch s.mem s.pc.toNat) s.pc) := by
  cases hrun : s.run with
  | faulted r => simp [step_faulted hrun, eq_comm]
  | stopped => simp [step_stopped hrun, eq_comm]
  | waitingKey x => simp [step_waiting hrun]
  | running =>
    rcases step_running_cases hrun with ⟨hu, -, e⟩ | ⟨-, hu, e⟩ | ⟨hu, -, t, e⟩
    · simp [e, hu, eq_comm]
    · simp [e, hu]
    · simp [e, hu]

theorem step_refused_iff (s : State) (r : Refusal) :
    step s = .refused r ↔
      s.run = .running ∧ RefusedAtPc s ∧ r = .faithfulKeySkip (memFetch s.mem s.pc.toNat) := by
  cases hrun : s.run with
  | faulted r => simp [step_faulted hrun]
  | stopped => simp [step_stopped hrun]
  | waitingKey x => simp [step_waiting hrun]
  | running =>
    rcases step_running_cases hrun with ⟨-, hf, e⟩ | ⟨hf, -, e⟩ | ⟨-, hf, t, e⟩
    · simp [e, hf]
    · simp [e, hf, eq_comm]
    · simp [e, hf]

theorem goesOn_iff (s : State) :
    GoesOn s ↔ (s.run = .running ∧ ¬RefusedAtPc s ∧ ¬ReadsUnwrittenAtPc s) ∨ ∃ x, s.run = .waitingKey x := by
  unfold GoesOn
  cases hrun : s.run with
  | faulted r => simp [step_faulted hrun]
  | stopped => simp [step_stopped hrun]
  | waitingKey x => simp [step_waiting hrun]
  | running =>
    rcases step_running_cases hrun with ⟨hu, -, e⟩ | ⟨hf, -, e⟩ | ⟨hu, hf, t, e⟩
    · simp [e, hu]
    · simp [e, hf]
    · simp [e, hu, hf]

/-! ### The obligations -/

/-- Settles O8: no instruction and none of the cycle's other parts touches the configuration, and a reset keeps it. -/
theorem configurationNeverChanges : Obligations.ConfigurationNeverChanges := by
  constructor
  · intro s t h
    rcases step_next_cases h with ⟨i, u, -, -, -, he, rfl⟩ | ⟨-, -, rfl⟩ | ⟨x, -, rfl⟩
    · rw [finishCycle_cfg, markWritten_cfg, (exec_frame he).rest, beginCycle_cfg]
    · exact beginCycle_cfg s
    · rw [finishCycle_cfg, markWritten_cfg, pollKey_eq, clearPorts_cfg]
  · rintro s t rom (h | h | h | h)
    · obtain ⟨-, rfl⟩ := hostStop_ok h
      rfl
    · obtain ⟨-, rfl⟩ := hostReset_ok h
      rfl
    · obtain ⟨-, bytes, -, -, rfl⟩ := loadRom_ok h
      rfl
    · obtain ⟨-, bytes, -, -, rfl⟩ := hostReload_ok h
      rfl

/-- Settles O22: an instruction takes no time, and each clock reading at the start or the end of a cycle is not before the one
before it. -/
theorem clockNeverGoesBack : Obligations.ClockNeverGoesBack := by
  intro s t h
  rcases step_next_cases h with ⟨i, u, -, -, -, he, rfl⟩ | ⟨-, -, rfl⟩ | ⟨x, -, rfl⟩
  · calc s.env.nowMs
      _ ≤ (beginCycle s).env.nowMs := nowMs_le_beginCycle s
      _ = u.env.nowMs := (exec_frame he).nowMs.symm
      _ = (markWritten i u).env.nowMs := by rw [markWritten_env]
      _ ≤ (finishCycle (markWritten i u)).env.nowMs := nowMs_le_finishCycle _
  · exact nowMs_le_beginCycle s
  · calc s.env.nowMs
      _ = (markWritten (.ldVxK x) (pollKey x (clearPorts s))).env.nowMs := by
        rw [markWritten_env, pollKey_eq, afterKey_nowMs, clearPorts_env]
      _ ≤ _ := nowMs_le_finishCycle _

/-- Settles O21: before the end of the cycle only LD DT, Vx and LD ST, Vx touch a timer, and the one timer check ticks both or
none (`timersTickOnce_finishCycle`). -/
theorem timersLoseAtMostOnePerStep : Obligations.TimersLoseAtMostOnePerStep := by
  intro s t h hwriters
  rcases step_next_cases h with ⟨i, u, hrun, hd, -, he, rfl⟩ | ⟨-, -, rfl⟩ | ⟨x, -, rfl⟩
  · obtain ⟨hdt, hst⟩ := hwriters i hrun hd
    have k := timersTickOnce_finishCycle (markWritten i u)
    rwa [TimersTickOnce, markWritten_dt, markWritten_st, (exec_frame he).dt hdt, (exec_frame he).st hst, beginCycle_dt,
      beginCycle_st] at k
  · exact timersTickOnce_of_eq (beginCycle_dt s) (beginCycle_st s)
  · have k := timersTickOnce_finishCycle (markWritten (.ldVxK x) (pollKey x (clearPorts s)))
    have hpoll := pollKey_frame (clearPorts s) x
    rwa [TimersTickOnce, markWritten_dt, markWritten_st, hpoll.dt rfl, hpoll.st rfl] at k

/-- Settles O20: the check's exact comparison is the one with `periodMs` (`periodElapsed_iff`), at the clock's next reading. -/
theorem timerCheckTicksAfterPeriod : Obligations.TimerCheckTicksAfterPeriod := by
  intro s l hwf hrun hl
  have hpos : 0 < s.cfg.timerHz := of_decide_eq_true hwf
  have hticks : ticks s = periodElapsed s.cfg l (clockAnswer s.env) := by simp [ticks, hl]
  rw [finishCycle_running_eq hrun, hl]
  refine ⟨fun hge => ?_, fun hlt => ?_⟩
  · have ht : ticks s = true := hticks.trans ((periodElapsed_iff hpos l _).mpr hge)
    rw [ht]
    exact ⟨countdown_true_toNat s.dt, countdown_true_toNat s.st, rfl⟩
  · have ht : ticks s = false := by
      rw [hticks, Bool.eq_false_iff, Ne, periodElapsed_iff hpos]
      exact not_le_of_gt hlt
    rw [ht]
    exact ⟨countdown_false s.dt, countdown_false s.st, rfl⟩

/-- Settles O17: the run start looks at the last tick only, which clearing the ports leaves. -/
theorem runStartTakesTheClock : Obligations.RunStartTakesTheClock :=
  fun _ => ⟨beginCycle_of_not_started, fun _ => beginCycle_of_started⟩

/-- Settles O19: the redraw point and the timer check after the trace leave its port. -/
theorem cycleEndTraces : Obligations.CycleEndTraces := by
  intro s hrun
  rw [finishCycle_running_eq hrun]
  refine ⟨fun hon => ?_, fun hoff => ?_⟩
  · show (tracePoint s).traceOut = _
    rw [tracePoint, if_pos hon]
    rfl
  · show (tracePoint s).traceOut = _
    rw [tracePoint, if_neg (Bool.eq_false_iff.mp hoff)]

/-- Settles O16: the four clauses are what the start of the cycle changes, the dispatch, the end of a cycle that has not completed,
and the first writes. -/
theorem stepRunsDecodedInstruction : Obligations.StepRunsDecodedInstruction := by
  refine ⟨fun s => ⟨?_, beginCycle_fetchAddr s, beginCycle_fetchWord s, ?_⟩, fun s i t hrun hd hr he => ?_, fun t h => ?_,
    fun i t => ⟨markWritten_eq i t, markWritten_not_running, fun hrun => ?_⟩⟩
  · rw [beginCycle_pc, nextPc_toNat]
  · rw [beginCycle_pc, beginCycle_fetchAddr, beginCycle_fetchWord]
    exact beginCycle_eq s
  · exact step_running_ok hrun hd hr he
  · exact finishCycle_not_running h
  · rw [markWritten_running hrun]
    exact ⟨fun r => writtenMarks_v i t.unwritten r.val r.isLt, rfl⟩

/-- Settles O24: an instruction that leaves the run state is CALL, RET or LD Vx, K (`exec_frame`), and these answer as
`callTo_cases`, `returnFrom_cases` and `pollKey_cases` say. -/
theorem faultsArePreciseAndOnlyFromCallRet : Obligations.FaultsArePreciseAndOnlyFromCallRet := by
  intro i s hrun
  obtain ⟨t, ht⟩ := exec_total i s
  refine ⟨t, ht, ?_⟩
  rcases (exec_frame ht).run with h | ⟨nnn, rfl⟩ | rfl | ⟨x, rfl⟩
  · exact .inl (h.trans hrun)
  · cases ht
    rcases callTo_cases (addrOperand nnn) s with ⟨hfull, e⟩ | ⟨-, e⟩
    · exact .inr (.inr ⟨_, e, rfl, rfl, .inl ⟨nnn, rfl, rfl, (stackFull_iff s).mp hfull⟩⟩)
    · exact .inl (e ▸ hrun)
  · cases ht
    rcases returnFrom_cases s with ⟨hempty, e⟩ | ⟨l, a, -, e⟩
    · exact .inr (.inr ⟨_, e, rfl, rfl, .inr ⟨rfl, rfl, hempty⟩⟩)
    · exact .inl (e ▸ hrun)
  · cases ht
    rcases pollKey_cases x s with ⟨k, -, e⟩ | ⟨-, e⟩
    · exact .inl (e ▸ rfl)
    · exact .inr (.inl ⟨x, rfl, e ▸ rfl⟩)

/-- Settles O25: for each of the three outcomes its exact condition, from each run state in turn; under `RESET_REGS = zero` no read
is one before the first write. -/
theorem stopsOnlyWhereTheSpecSays : Obligations.StopsOnlyWhereTheSpecSays := by
  refine fun s => ⟨step_fault_iff s, fun r => (step_refused_iff s r).trans ?_, goesOn_iff s, ?_⟩
  · rw [RefusedAtPc, and_assoc]
  · rintro hz ⟨i, -, hu, -⟩
    cases hz.symm.trans hu

/-- Settles O26: the step is the fault raised in the state that the start of the cycle left (`beginCycle_eq`). -/
theorem invalidWordTakesDispatchFault : Obligations.InvalidWordTakesDispatchFault := by
  intro s hrun hd
  refine ⟨_, step_running_invalid hrun hd, ?_⟩
  have hstarted := fun l => beginCycle_of_started (s := s) (l := l)
  rw [beginCycle_eq] at hstarted ⊢
  exact ⟨nextPc_toNat s.pc, rfl, rfl, rfl, hstarted, rfl, rfl, rfl, rfl, rfl, rfl, rfl, rfl, rfl, rfl, rfl⟩

/-- Settles O23: the one poll of the step leaves the block waiting, or writes the key and completes LD Vx, K. -/
theorem waitEndsOnlyWithAKey : Obligations.WaitEndsOnlyWithAKey := by
  intro s x hrun
  rw [step_waiting hrun]
  rcases pollKey_cases x (clearPorts s) with ⟨k, hk, e⟩ | ⟨hk, e⟩
  · refine ⟨fun hnone => ?_, fun k' hk' => ?_⟩
    · cases hnone.symm.trans hk
    · cases hk.symm.trans hk'
      rw [e, markWritten_running rfl]
      exact ⟨_, rfl, rfl, getV_setV (clearPorts s) x _, fun r => writtenMarks_v (.ldVxK x) s.unwritten r.val r.isLt,
        Bool.and_true s.unwritten.i, rfl⟩
  · refine ⟨fun _ => ?_, fun k' hk' => ?_⟩
    · have hwait : (pollKey x (clearPorts s)).run ≠ .running := by rw [e]; nofun
      rw [markWritten_not_running hwait, finishCycle_not_running hwait, e, ← hrun]
      rfl
    · cases hk.symm.trans hk'

end Sys2Proof.Machine

/-! SUPPORT. Instructions that undo one another, the shift pair, the wait for a key, and the host's ROM load and reset. -/

namespace Sys2Proof.Machine

/-! ### CALL and RET -/

/-- Settles O31: RET takes off the one entry CALL has pushed, which is PC whole because PC is in range. -/
theorem retUndoesCall : Obligations.RetUndoesCall := by
  intro nnn s hroom hpc
  have hback : addrOperand (s.pc.setWidth 12) = s.pc := by
    apply BitVec.eq_of_toNat_eq
    rw [addrOperand_toNat, pc_setWidth_toNat hpc]
  refine ⟨_, exec_call nnn s, ?_⟩
  rw [callTo_of_room _ hroom, exec_ret, returnFrom_of_append rfl, hback]

/-! ### LD [I], Vx and what reads it back -/

/-- Settles O15: V0 and V1 are the first two bytes that LD [I], Vx stores from I on. -/
theorem storeIsSeenByNextFetch : Obligations.StoreIsSeenByNextFetch := by
  intro x s hx
  obtain ⟨t, he, -, hbytes, -⟩ := bulkStoreWritesRegisters.2 x s
  refine ⟨t, he, ?_⟩
  have h0 : memRead t.mem (indexAddr s) = getV s 0 := hbytes 0 (Fin.zero_le x)
  have h1 : memRead t.mem (indexAddr s + 1) = getV s 1 := hbytes 1 hx
  rw [memFetch, h0, h1]
  rfl

/-- Settles O52: each register up to Vx is loaded from the byte it was stored in; the store leaves I and the registers alone. -/
theorem bulkLoadUndoesBulkStore : Obligations.BulkLoadUndoesBulkStore := by
  intro x s
  obtain ⟨t, he, hmem, hbytes, -⟩ := bulkStoreWritesRegisters.2 x s
  have hv : ∀ r, getV t r = getV s r := by rw [hmem]; exact fun _ => rfl
  have hi : indexAddr t = indexAddr s := by rw [hmem]; rfl
  obtain ⟨u, hu, hframe, hload⟩ := bulkLoadReadsRegisters.2 x t
  have hregs : u.v = t.v := v_ext fun r => by
    rw [hload r, hi]
    split
    · next hr => rw [hbytes r hr, hv r]
    · rfl
  refine ⟨t, he, hu.trans (congrArg _ ?_)⟩
  rw [hframe, hregs]

/-! ### The shifts -/

theorem shiftOperand_eq (s : State) (x y : Reg) :
    shiftOperand s x y = getV s (if s.cfg.shiftSource = .vx then x else y) := by
  unfold shiftOperand
  cases s.cfg.shiftSource <;> rfl

theorem byte_shiftRight_one_toNat (b : Byte) : (b >>> 1).toNat = b.toNat / 2 := by
  rw [BitVec.toNat_ushiftRight, Nat.shiftRight_eq_div_pow]

theorem byte_shiftLeft_one_toNat (b : Byte) : (b <<< 1).toNat = b.toNat * 2 % 256 := by
  rw [BitVec.toNat_shiftLeft, Nat.shiftLeft_eq]

theorem droppedLowFlag_toNat (b : Byte) : (droppedLowFlag b).toNat = b.toNat % 2 := by
  rw [droppedLowFlag, BitVec.toNat_and]
  exact Nat.and_one_is_mod b.toNat

theorem droppedHighFlag_toNat (b : Byte) : (droppedHighFlag b).toNat = b.toNat / 128 := by
  rw [droppedHighFlag, BitVec.toNat_ushiftRight, Nat.shiftRight_eq_div_pow]

/-- The shift right writes the shifted source and then the bit it drops (42_alu.md R140). -/
theorem shiftRight_spec (x y : Reg) (s : State) :
    let src := (getV s (if s.cfg.shiftSource = .vx then x else y)).toNat
    ∃ b f, WritesVFlag s (shiftRight x y s) x b f ∧ b.toNat = src / 2 ∧ f.toNat = src % 2 := by
  rw [← shiftOperand_eq]
  exact ⟨_, _, writesVFlag_setVFlag s x _ rfl, byte_shiftRight_one_toNat _, droppedLowFlag_toNat _⟩

/-- The shift left writes the shifted source and then the bit it drops (42_alu.md R142). -/
theorem shiftLeft_spec (x y : Reg) (s : State) :
    let src := (getV s (if s.cfg.shiftSource = .vx then x else y)).toNat
    ∃ b f, WritesVFlag s (shiftLeft x y s) x b f ∧ b.toNat = src * 2 % 256 ∧ f.toNat = src / 128 := by
  rw [← shiftOperand_eq]
  exact ⟨_, _, writesVFlag_setVFlag s x _ rfl, byte_shiftLeft_one_toNat _, droppedHighFlag_toNat _⟩

/-- Settles O38: both forms of each shift are the one operation (`shiftRight_spec`, `shiftLeft_spec`). -/
theorem shiftsSetDroppedBit : Obligations.ShiftsSetDroppedBit :=
  ⟨fun x _ hy => ⟨decodes_shrVxVy x hy, decodes_shlVxVy x hy⟩, fun x => ⟨decodes_shrVx x, decodes_shlVx x⟩,
    fun x s => ⟨(exec_shrVx x s).trans (exec_shrVxVy x 0 s).symm, (exec_shlVx x s).trans (exec_shlVxVy x 0 s).symm⟩,
    fun x y s =>
      have ⟨b, f, hr⟩ := shiftRight_spec x y s
      have ⟨b', f', hl⟩ := shiftLeft_spec x y s
      ⟨⟨_, b, f, exec_shrVxVy x y s, hr⟩, _, b', f', exec_shlVxVy x y s, hl⟩⟩

/-- Settles O39: the one-operand forms are the shifts at y = 0. -/
theorem shiftAliasesShiftVxOrV0 : Obligations.ShiftAliasesShiftVxOrV0 :=
  fun x => ⟨decodes_shrVx x, decodes_shlVx x, fun s =>
    have ⟨b, f, hr⟩ := shiftRight_spec x 0 s
    have ⟨b', f', hl⟩ := shiftLeft_spec x 0 s
    ⟨⟨_, b, f, exec_shrVx x s, hr⟩, _, b', f', exec_shlVx x s, hl⟩⟩

/-! ### The first poll of LD Vx, K -/

/-- Settles O47: the answer of the poll selects the case of `pollKey_cases`. -/
theorem waitKeyTakesKeyOrWaits : Obligations.WaitKeyTakesKeyOrWaits := by
  refine ⟨fun _ => decodes_familyF rfl, fun x s k hk => ?_, fun x s hk => ?_⟩ <;> rw [exec_ldVxK]
  · rcases pollKey_cases x s with ⟨k', hk', e⟩ | ⟨hk', -⟩
    · cases hk.symm.trans hk'
      rw [e]
      exact ⟨_, rfl, rfl, getV_setV s x _⟩
    · cases hk.symm.trans hk'
  · rcases pollKey_cases x s with ⟨k, hk', -⟩ | ⟨-, e⟩
    · cases hk.symm.trans hk'
    · rw [e]

/-! ### Reset -/

/-- Settles O2: the marks are those of the configuration (`resetMarks`), every register holds 0, and `State.reset` is itself a
reset under `RESET_REGS = zero`. -/
theorem resetRegistersZeroRunNotStarted : Obligations.ResetRegistersZeroRunNotStarted := by
  have hzero : ∀ r, getV State.reset r = 0 := fun r => by simp [getV, State.reset]
  have hmarks : ∀ (c : ResetRegs) (r : Reg), (resetMarks c).v[r] = (c == .unwritten) := fun c r => resetMarks_v c r.val r.isLt
  refine ⟨fun r => ⟨hzero r, hmarks _ r⟩, rfl, rfl, rfl, rfl, fun s hs r => ?_, fun s hs r => ?_⟩
  · have hv : (resetOf s).unwritten.v[r] = false := (hmarks _ r).trans (by rw [hs]; rfl)
    have hi : (resetOf s).unwritten.i = false := (resetMarks_i _).trans (by rw [hs]; rfl)
    exact ⟨hzero r, hv, rfl, hi⟩
  · have hv : (resetOf s).unwritten.v[r] = true := (hmarks _ r).trans (by rw [hs]; rfl)
    have hi : (resetOf s).unwritten.i = true := (resetMarks_i _).trans (by rw [hs]; rfl)
    exact ⟨hv, hi⟩

/-! ### The host's controls -/

theorem loadRom_waiting {s : State} {x : Reg} (rom : Option (List Byte)) (h : s.run = .waitingKey x) :
    loadRom rom s = .error .midInstruction := by
  simp [loadRom, h]

theorem loadRom_unreadable {s : State} (h : s.run = .running) : loadRom none s = .error .romUnreadable := by
  simp [loadRom, h, placeRom]

theorem loadRom_tooLong {s : State} {bytes : List Byte} (h : s.run = .running) (hl : 3584 < bytes.length) :
    loadRom (some bytes) s = .error .romTooLong := by
  have hm : ¬ bytes.length ≤ maxRom := Nat.not_le_of_lt hl
  simp [loadRom, h, placeRom, hm]

/-- Settles O57: a Running block stores the ROM or answers the LoadError, and every other run state turns the load away. -/
theorem romLoadsAt200OrIsRefused : Obligations.RomLoadsAt200OrIsRefused := by
  refine ⟨fun bytes s hrun hl => ?_, fun bytes s => loadRom_tooLong, fun s => loadRom_unreadable,
    fun rom s x => loadRom_waiting rom, fun rom s h => ?_⟩
  · exact ⟨_, loadRom_running hrun hl, onlyMem_storeBytes s _ _, storesAt_storeBytes s _ (by omega)⟩
  · rcases h with h | ⟨r, h⟩ <;> simp [loadRom, h]

/-- Settles O58: each control looks at the run state first; what a reset leaves is `resetOf`. -/
theorem hostStopsAndResetsBetweenCycles : Obligations.HostStopsAndResetsBetweenCycles := by
  refine ⟨fun s h => ?_, fun s x h => ⟨?_, ?_, fun rom => ?_⟩, fun s h => ?_, fun s h => ?_⟩
  · simp [hostStop, h]
  · simp [hostStop, h]
  · simp [hostReset, h]
  · simp [hostReload, hostReset, h]
  · rcases h with h | ⟨r, h⟩ <;> simp [hostStop, h]
  · exact ⟨_, hostReset_of_not_waiting h, rfl, wf_resetMemory s.cfg, fun _ ha => memRead_resetMemory s.cfg ha⟩

theorem hostReload_eq {s : State} (rom : Option (List Byte)) (h : ∀ x, s.run ≠ .waitingKey x) :
    hostReload rom s = loadRom rom (resetOf s) := by
  rw [hostReload, hostReset_of_not_waiting h]

/-- A byte of the reset memory's program area: the ROM's, and 0 where the ROM has none. -/
theorem memRead_romByte (s : State) {t : State} {bytes : List Byte} (h : StoresAt (resetOf s) t 0x200 bytes) {k : Nat}
    (hk : k < 3584) : memRead t.mem (0x200 + k) = bytes.getD k 0 := by
  obtain ⟨hin, hout⟩ := h
  by_cases hl : k < bytes.length
  · rw [hin k hl, List.getD_eq_getElem _ _ hl]
  · have hzero : memRead (resetMemory s.cfg) (0x200 + k) = 0 := by
      rw [memRead_resetMemory s.cfg (by omega), dif_neg (by omega)]
    rw [List.getD_eq_default _ _ (by omega), hout _ (fun j hj => by omega)]
    exact hzero

/-- Settles O59: a reload is the load into the reset block, where PC is 0x200; the fetched word is the first two bytes of the
program area (`memRead_romByte`). -/
theorem reloadResetsThenLoadsRom : Obligations.ReloadResetsThenLoadsRom := by
  intro s h
  refine ⟨hostReset_of_not_waiting h, fun rom => hostReload_eq rom h, (hostReload_eq none h).trans (loadRom_unreadable rfl),
    fun bytes => ⟨fun hl => (hostReload_eq _ h).trans (loadRom_tooLong rfl hl), fun hl => ?_⟩⟩
  have hstores := storesAt_storeBytes (resetOf s) 0x200 (bs := bytes) (by omega)
  refine ⟨_, hostReload_of_not_waiting h hl, onlyMem_storeBytes _ _ _, hstores, rfl, rfl, ?_⟩
  have h0 := memRead_romByte s hstores (k := 0) (by omega)
  have h1 := memRead_romByte s hstores (k := 1) (by omega)
  show wordOfBytes (memRead _ (0x200 + 0)) (memRead _ (0x200 + 1)) = _
  rw [h0, h1]
  rfl

/-! ### Canonical memory (assumption log 1) -/

/-- Rising addresses list a cell once, so a listed cell is what its address reads. -/
theorem cellAt_of_mem {m : Memory} {c : Host.Cell} (hm : m.Pairwise (fun c d => c.1 < d.1)) (hc : c ∈ m) :
    cellAt m c.1 = c.2 := by
  induction m with
  | nil => cases hc
  | cons d m ih =>
    obtain ⟨hd, hm⟩ := List.pairwise_cons.mp hm
    rcases List.mem_cons.mp hc with rfl | hc
    · exact if_pos rfl
    · exact (if_neg (Nat.ne_of_lt (hd c hc))).trans (ih hm hc)

/-- An address that does not read as the reset contents is listed. -/
theorem mem_of_cellAt_ne_background {m : Memory} {k : Nat} (h : cellAt m k ≠ background k) : (k, cellAt m k) ∈ m := by
  induction m with
  | nil => exact absurd rfl h
  | cons d m ih =>
    rw [cellAt] at h ⊢
    by_cases hk : d.1 = k
    · subst hk
      rw [if_pos rfl]
      exact List.mem_cons_self
    · rw [if_neg hk] at h ⊢
      exact List.mem_cons_of_mem d (ih h)

/-- The canonical form lists exactly the addresses below 4096 that do not read as the reset contents, each with its byte. -/
theorem Memory.wf.mem_iff {m : Memory} (hm : m.wf) (c : Host.Cell) :
    c ∈ m ↔ c.1 < 4096 ∧ memRead m c.1 = c.2 ∧ c.2 ≠ background c.1 := by
  constructor
  · intro hc
    obtain ⟨hlt, hne⟩ := hm.2 c hc
    refine ⟨hlt, ?_, hne⟩
    rw [memRead, Nat.mod_eq_of_lt hlt]
    exact cellAt_of_mem hm.1 hc
  · rintro ⟨hlt, hread, hne⟩
    rw [memRead, Nat.mod_eq_of_lt hlt] at hread
    have hmem := mem_of_cellAt_ne_background (m := m) (k := c.1) (hread ▸ hne)
    rwa [hread] at hmem

/-- Settles O9: the reads decide which cells a canonical memory lists (`Memory.wf.mem_iff`), and rising addresses decide their
order. -/
theorem canonicalMemoryIsUnique : Obligations.CanonicalMemoryIsUnique := by
  intro m n hm hn hread
  have hirrefl : Std.Irrefl (fun c d : Host.Cell => c.1 < d.1) := ⟨fun _ => Nat.lt_irrefl _⟩
  have hantisymm : Std.Antisymm (fun c d : Host.Cell => c.1 < d.1) := ⟨fun _ _ h h' => absurd h' (Nat.lt_asymm h)⟩
  refine hm.1.eq_of_mem_iff hn.1 fun c => ?_
  rw [hm.mem_iff, hn.mem_iff]
  exact and_congr_right fun hlt => by rw [hread c.1 hlt]

end Sys2Proof.Machine

/-! SUPPORT. The whole sprite (43_index_sprite.md R161) where its bytes lie outside the framebuffer: its rows do not overlap, so
that it is one XOR onto the pixels as they stood, and a second draw takes it off again. -/

namespace Sys2Proof.Machine

/-! ### Which rows cover a pixel -/

theorem spriteCovers_succ (cx cy n : Nat) (rows : Nat → Byte) (px py : Nat) :
    spriteCovers cx cy (n + 1) rows px py = (spriteCovers cx cy n rows px py || rowCovers cx cy n (rows n) px py) := by
  simp [spriteCovers, List.range_succ]

theorem spriteCovers_iff (cx cy n : Nat) (rows : Nat → Byte) (px py : Nat) :
    spriteCovers cx cy n rows px py = true ↔ ∃ r < n, rowCovers cx cy r (rows r) px py = true := by
  simp [spriteCovers]

theorem spriteCovers_congr {cx cy n : Nat} {rows rows' : Nat → Byte} (h : ∀ r < n, rows r = rows' r) (px py : Nat) :
    spriteCovers cx cy n rows px py = spriteCovers cx cy n rows' px py := by
  rw [Bool.eq_iff_iff, spriteCovers_iff, spriteCovers_iff]
  exact exists_congr fun r => and_congr_right fun hr => by rw [h r hr]

/-- A row lies on one line of the screen. -/
theorem py_of_rowCovers {cx cy r : Nat} {row : Byte} {px py : Nat} (h : rowCovers cx cy r row px py = true) :
    py = (cy + r) % 32 := by
  simp only [rowCovers, Bool.and_eq_true, beq_iff_eq] at h
  exact h.1.1

/-- The 32 lines of the screen are more than a sprite has rows: the rows above a row do not cover its pixels. -/
theorem spriteCovers_above_eq_false {cx cy r : Nat} (rows : Nat → Byte) {row : Byte} {px py : Nat} (hr : r < 32)
    (h : rowCovers cx cy r row px py = true) : spriteCovers cx cy r rows px py = false := by
  rw [Bool.eq_false_iff, Ne, spriteCovers_iff]
  rintro ⟨q, hq, hcovers⟩
  have h1 := py_of_rowCovers h
  have h2 := py_of_rowCovers hcovers
  omega

theorem spriteCovers_succ_xor {cx cy n : Nat} (rows : Nat → Byte) (px py : Nat) (hn : n < 32) :
    spriteCovers cx cy (n + 1) rows px py =
      (spriteCovers cx cy n rows px py != rowCovers cx cy n (rows n) px py) := by
  rw [spriteCovers_succ]
  cases hrow : rowCovers cx cy n (rows n) px py with
  | false => simp
  | true => rw [spriteCovers_above_eq_false rows hn hrow]; rfl

/-! ### A sprite outside the framebuffer -/

section
variable {cx cy base n : Nat} {m : Memory}

/-- Each row's byte is read as it stood: the rows above it have not changed it. -/
theorem memRead_row_of_outside (hout : ∀ r < n, (base + r) % 4096 < 0xF00) {r : Nat} (hr : r < n) :
    memRead (drawSprite cx cy base r m).mem (base + r) = memRead m (base + r) :=
  memRead_drawSprite_outside cx cy base r m (hout r hr)

/-- The first `k` rows are one XOR onto the pixels as they stood. -/
theorem pixel_drawSprite_of_outside (hn : n < 32) (hout : ∀ r < n, (base + r) % 4096 < 0xF00) {k : Nat} (hk : k ≤ n)
    {px py : Nat} (hx : px < 64) (hy : py < 32) :
    pixel (drawSprite cx cy base k m).mem px py =
      (pixel m px py != spriteCovers cx cy k (fun r => memRead m (base + r)) px py) := by
  induction k with
  | zero => exact (Bool.xor_false _).symm
  | succ k ih =>
    rw [pixel_drawSprite_succ cx cy base k m hx hy, ih (by omega), memRead_row_of_outside hout hk,
      spriteCovers_succ_xor _ px py (by omega)]
    exact Bool.xor_assoc _ _ _

/-- The sprite collides exactly if it covers a pixel that was lit before any of it was drawn. -/
theorem drawSprite_hit_iff_of_outside (hn : n < 32) (hout : ∀ r < n, (base + r) % 4096 < 0xF00) :
    (drawSprite cx cy base n m).hit = true ↔ ∃ px < 64, ∃ py < 32,
      spriteCovers cx cy n (fun r => memRead m (base + r)) px py = true ∧ pixel m px py = true := by
  rw [drawSprite_hit_iff]
  have hlit : ∀ r < n, ∀ px < 64, ∀ py < 32, rowCovers cx cy r (memRead m (base + r)) px py = true →
      pixel (drawSprite cx cy base r m).mem px py = pixel m px py := by
    intro r hr px hx py hy hrow
    rw [pixel_drawSprite_of_outside hn hout hr.le hx hy, spriteCovers_above_eq_false _ (by omega) hrow]
    exact Bool.xor_false _
  constructor
  · rintro ⟨r, hr, px, hx, py, hy, hrow, hpx⟩
    rw [memRead_row_of_outside hout hr] at hrow
    rw [hlit r hr px hx py hy hrow] at hpx
    exact ⟨px, hx, py, hy, (spriteCovers_iff ..).mpr ⟨r, hr, hrow⟩, hpx⟩
  · rintro ⟨px, hx, py, hy, hcovers, hpx⟩
    obtain ⟨r, hr, hrow⟩ := (spriteCovers_iff ..).mp hcovers
    refine ⟨r, hr, px, hx, py, hy, ?_, ?_⟩
    · rw [memRead_row_of_outside hout hr]
      exact hrow
    · rw [hlit r hr px hx py hy hrow]
      exact hpx

end

/-! ### The obligations -/

/-- Settles O42: what DRW does to the state is `exec_drw_state`, and a sprite changes no byte outside the framebuffer. -/
theorem drwCompletesInsideFramebuffer : Obligations.DrwCompletesInsideFramebuffer := by
  intro x y n
  refine ⟨decodes_drw x y n, fun s => ?_⟩
  obtain ⟨t, hexec, hframe, hmem, hv⟩ := exec_drw_state x y n s
  refine ⟨t, hexec, hframe, ?_, fun r hr => (hv r).trans (if_neg hr), fun a ha => ?_⟩
  · rw [hv 15, if_pos rfl]
    exact collisionFlag_zero_or_one _
  · rw [hmem]
    exact memRead_drawSprite_outside _ _ _ _ s.mem ha

/-- Settles O44: the sprite is one XOR (`pixel_drawSprite_of_outside`), so that a lit pixel is cleared exactly if the sprite covers
it. -/
theorem drwXorsSpriteOntoPixels : Obligations.DrwXorsSpriteOntoPixels := by
  intro x y n s hout
  obtain ⟨t, hexec, -, hmem, hv⟩ := exec_drw_state x y n s
  have hpix : ∀ px < 64, ∀ py < 32, pixel t.mem px py = (pixel s.mem px py != spriteCovers (getV s x).toNat (getV s y).toNat
      n.val (fun r => memRead s.mem (s.i.toNat + r)) px py) := by
    intro px hx py hy
    rw [hmem]
    exact pixel_drawSprite_of_outside (by omega) hout (Nat.le_refl _) hx hy
  have hhit := drawSprite_hit_iff_of_outside (cx := (getV s x).toNat) (cy := (getV s y).toNat) (m := s.mem)
    (show n.val < 32 by omega) hout
  refine ⟨t, hexec, hpix, ?_⟩
  rw [hv 15, if_pos rfl, collisionFlag_eq_one_iff]
  refine hhit.trans (exists_congr fun px => and_congr_right fun hx => exists_congr fun py => and_congr_right fun hy => ?_)
  rw [hpix px hx py hy]
  cases pixel s.mem px py <;> simp

/-- Settles O45: the first draw leaves the coordinates, I and the sprite's bytes, so the second XORs the same pixels again. -/
theorem drwTwiceRestoresScreen : Obligations.DrwTwiceRestoresScreen := by
  intro x y n s hx15 hy15 hout
  obtain ⟨t, ht, htframe, -, htv, htout⟩ := (drwCompletesInsideFramebuffer x y n).2 s
  obtain ⟨u, hu, -, -, -, huout⟩ := (drwCompletesInsideFramebuffer x y n).2 t
  have hi : t.i = s.i := by rw [htframe]
  have hout' : ∀ r < n.val, (t.i.toNat + r) % 4096 < 0xF00 := hi ▸ hout
  obtain ⟨t', ht', htpix, -⟩ := drwXorsSpriteOntoPixels x y n s hout
  obtain ⟨u', hu', hupix, huvf⟩ := drwXorsSpriteOntoPixels x y n t hout'
  cases ht.symm.trans ht'
  cases hu.symm.trans hu'
  have hcovers : ∀ px py,
      spriteCovers (getV t x).toNat (getV t y).toNat n.val (fun r => memRead t.mem (t.i.toNat + r)) px py =
      spriteCovers (getV s x).toNat (getV s y).toNat n.val (fun r => memRead s.mem (s.i.toNat + r)) px py := by
    intro px py
    rw [htv x hx15, htv y hy15, hi]
    exact spriteCovers_congr (fun r hr => htout _ (hout r hr)) px py
  have hback : ∀ px < 64, ∀ py < 32, pixel u.mem px py = pixel s.mem px py := by
    intro px hx py hy
    rw [hupix px hx py hy, hcovers, htpix px hx py hy, Bool.bne_assoc, bne_self_eq_false]
    exact Bool.xor_false _
  refine ⟨t, u, ht, hu, fun a => ?_, ?_⟩
  · by_cases ha : a % 4096 < 0xF00
    · exact (huout a ha).trans (htout a ha)
    · exact memRead_eq_of_pixels hback (Nat.not_lt.mp ha)
  · rintro ⟨px, hx, py, hy, hdark, hlit⟩
    exact huvf.mpr ⟨px, hx, py, hy, hlit, (hback px hx py hy).trans hdark⟩

end Sys2Proof.Machine

/-! SUPPORT. What an instruction does not read (10_state.md R26, R33, R41): with another value in such a register or timer it does
the same to everything else. Only CALL, RET, the skips and the key poll branch, so these are first given as one update each. -/

namespace Sys2Proof.Machine

/-! ### The branching operations as one update of the state -/

theorem callTo_eq_update (target : Word) (s : State) :
    callTo target s =
      { s with
        stack := if stackFull s then s.stack else s.stack ++ [s.pc.setWidth 12]
        pc := if stackFull s then s.pc else target
        run := if stackFull s then .faulted ⟨.stackOverflow, s.fetchWord, s.fetchAddr⟩ else s.run
        faultOut := if stackFull s then some ⟨.stackOverflow, s.fetchWord, s.fetchAddr⟩ else s.faultOut } := by
  rcases callTo_cases target s with ⟨hf, e⟩ | ⟨hf, e⟩ <;> rw [e, hf] <;> rfl

theorem returnFrom_eq_update (s : State) :
    returnFrom s =
      { s with
        stack := s.stack.dropLast
        pc := (s.stack.getLast?.map addrOperand).getD s.pc
        run := if s.stack = [] then .faulted ⟨.stackUnderflow, s.fetchWord, s.fetchAddr⟩ else s.run
        faultOut := if s.stack = [] then some ⟨.stackUnderflow, s.fetchWord, s.fetchAddr⟩ else s.faultOut } := by
  rcases returnFrom_cases s with ⟨hs, e⟩ | ⟨l, a, hs, e⟩ <;> rw [e] <;> simp [hs, addrOperand, raiseFault]

theorem pollKey_eq_update (x : Reg) (s : State) :
    pollKey x s =
      { s with
        v := ((keyAnswer s.env).map fun k => s.v.set x (BitVec.ofNat 8 k.val)).getD s.v
        run := ((keyAnswer s.env).map fun _ => RunState.running).getD (.waitingKey x)
        env := afterKey s.env } := by
  rcases pollKey_cases x s with ⟨k, hk, e⟩ | ⟨hk, e⟩ <;> rw [e, hk] <;> rfl

/-! ### ST -/

/-- With another ST an instruction answers the same state but for ST, which only LD ST, Vx writes. -/
theorem exec_withSt {i : Instr} {s t : State} (b : Byte) (h : exec i s = .next t) :
    exec i { s with st := b } = .next { t with st := if writesSt i then t.st else b } := by
  cases i with
  | call | ret | ldVxK | seVxKk | sneVxKk | seVxVy | sneVxVy | skp | sknp =>
    cases h
    simp only [exec_call, callTo_eq_update, exec_ret, returnFrom_eq_update, exec_ldVxK, pollKey_eq_update, exec_seVxKk,
      exec_sneVxKk, exec_seVxVy, exec_sneVxVy, exec_skp, exec_sknp, skipIf_eq]
    rfl
  | _ => cases h; rfl

/-! ### I -/

/-- With another I an instruction that is not named to read I answers the same state but for I, which it may write. -/
theorem exec_setI {i : Instr} {s t : State} (w : Word) (hi : readsI i = false) (h : exec i s = .next t) :
    exec i (setI s w) = .next (setI t (if writesI i then t.i else w)) := by
  cases i with
  | addIVx | ldBVx | ldMemVx | ldVxMem | drw => cases hi
  | call | ret | ldVxK | seVxKk | sneVxKk | seVxVy | sneVxVy | skp | sknp =>
    cases h
    simp only [exec_call, callTo_eq_update, exec_ret, returnFrom_eq_update, exec_ldVxK, pollKey_eq_update, exec_seVxKk,
      exec_sneVxKk, exec_seVxVy, exec_sneVxVy, exec_skp, exec_sknp, skipIf_eq]
    rfl
  | _ => cases h; rfl

/-! ### A V register -/

/-- The two states are the same but for one V register. -/
def SameButV (r : Reg) (t u : State) : Prop := OnlyV t u ∧ ∀ q, q ≠ r → getV u q = getV t q

section
variable (s : State) (r : Reg) (b : Byte)

theorem sameButV_setV : SameButV r s (setV s r b) :=
  ⟨rfl, fun q hq => (getV_setV s r b q).trans (if_neg hq)⟩

theorem sameButV_setV_setV (x : Reg) (c : Byte) : SameButV r (setV s x c) (setV (setV s r b) x c) :=
  ⟨rfl, fun q hq => by simp [getV_setV, hq]⟩

theorem sameButV_setVFlag_setV (x : Reg) (c f : Byte) : SameButV r (setVFlag s x c f) (setVFlag (setV s r b) x c f) :=
  ⟨rfl, fun q hq => by simp [getV_setVFlag, hq]⟩

theorem sameButV_loadRegs_setV (a n : Nat) : SameButV r (loadRegs s a n) (loadRegs (setV s r b) a n) :=
  ⟨rfl, fun q hq => by simp [getV_loadRegs, hq]⟩

theorem callTo_setV (target : Word) : callTo target (setV s r b) = setV (callTo target s) r b := by
  rw [callTo_eq_update, callTo_eq_update]
  rfl

theorem returnFrom_setV : returnFrom (setV s r b) = setV (returnFrom s) r b := by
  rw [returnFrom_eq_update, returnFrom_eq_update]
  rfl

theorem skipIf_setV (c : Bool) : skipIf c (setV s r b) = setV (skipIf c s) r b := by
  rw [skipIf_eq, skipIf_eq]
  rfl

theorem sameButV_pollKey_setV (x : Reg) : SameButV r (pollKey x s) (pollKey x (setV s r b)) := by
  rw [pollKey_eq_update, pollKey_eq_update, setV_env]
  cases keyAnswer s.env with
  | none => exact ⟨rfl, (sameButV_setV s r b).2⟩
  | some k => exact ⟨rfl, (sameButV_setV_setV s r b x (BitVec.ofNat 8 k.val)).2⟩

end

/-- Registers that read alike up to Vx are the same bytes for LD [I], Vx. -/
theorem regsUpTo_congr {s s' : State} {x : Reg} (h : ∀ q, q ≤ x → getV s' q = getV s q) : regsUpTo s' x = regsUpTo s x := by
  apply List.ext_getElem
  · rw [length_regsUpTo, length_regsUpTo]
  · intro k h1 h2
    have hk : k < x.val + 1 := length_regsUpTo s x ▸ h2
    have hlt : k < 16 := by omega
    rw [getElem_regsUpTo (r := ⟨k, hlt⟩) h1, getElem_regsUpTo (r := ⟨k, hlt⟩) h2]
    exact h ⟨k, hlt⟩ (Nat.le_of_lt_succ hk)

/-- With another value in a V register that it is not named to read, an instruction answers the same state but for that
register. -/
theorem exec_setV {i : Instr} {s t : State} {r : Reg} (b : Byte) (hr : readsV s.cfg i r = false) (h : exec i s = .next t) :
    ∃ u, exec i (setV s r b) = .next u ∧ SameButV r t u := by
  have hread : ∀ q, readsV s.cfg i q = true → getV (setV s r b) q = getV s q := by
    intro q hq
    refine (getV_setV s r b q).trans (if_neg ?_)
    rintro rfl
    exact Bool.false_ne_true (hr.symm.trans hq)
  cases i with
  | ldVxKk x kk => cases h; exact ⟨_, rfl, sameButV_setV_setV s r b x _⟩
  | ldVxDt x => cases h; exact ⟨_, rfl, sameButV_setV_setV s r b x _⟩
  | ldVxMem x => cases h; exact ⟨_, rfl, sameButV_loadRegs_setV s r b _ _⟩
  | ldVxK x => cases h; exact ⟨_, rfl, sameButV_pollKey_setV s r b x⟩
  | rnd x kk => cases h; exact ⟨_, rfl, rfl, (sameButV_setV_setV s r b x _).2⟩
  | call nnn => cases h; exact ⟨_, congrArg Host.Outcome.next (callTo_setV s r b _), sameButV_setV _ r b⟩
  | ret => cases h; exact ⟨_, congrArg Host.Outcome.next (returnFrom_setV s r b), sameButV_setV _ r b⟩
  | sys | cls | jp | ldINnn => cases h; exact ⟨setV _ r b, rfl, sameButV_setV _ r b⟩
  | addVxKk x kk =>
    cases h
    rw [exec_addVxKk, hread x (by simp [readsV])]
    exact ⟨_, rfl, sameButV_setV_setV s r b x _⟩
  | ldVxVy x y =>
    cases h
    rw [exec_ldVxVy, hread y (by simp [readsV])]
    exact ⟨_, rfl, sameButV_setV_setV s r b x _⟩
  | orVxVy x y | andVxVy x y | xorVxVy x y =>
    have hx := hread x (by simp [readsV])
    have hy := hread y (by simp [readsV])
    cases h
    simp only [exec_orVxVy, exec_andVxVy, exec_xorVxVy, hx, hy]
    exact ⟨_, rfl, sameButV_setV_setV s r b x _⟩
  | addVxVy x y | subVxVy x y | subnVxVy x y =>
    have hx := hread x (by simp [readsV])
    have hy := hread y (by simp [readsV])
    cases h
    simp only [exec_addVxVy, exec_subVxVy, exec_subnVxVy, hx, hy]
    exact ⟨_, rfl, sameButV_setVFlag_setV s r b x _ _⟩
  | shrVxVy x y | shlVxVy x y =>
    have hsrc : shiftOperand (setV s r b) x y = shiftOperand s x y := by
      rw [shiftOperand_eq, shiftOperand_eq]
      exact hread _ (beq_self_eq_true _)
    cases h
    simp only [exec_shrVxVy, exec_shlVxVy, shiftRight, shiftLeft, hsrc]
    exact ⟨_, rfl, sameButV_setVFlag_setV s r b x _ _⟩
  | shrVx x | shlVx x =>
    have hsrc : shiftOperand (setV s r b) x 0 = shiftOperand s x 0 := by
      rw [shiftOperand_eq, shiftOperand_eq]
      exact hread _ (beq_self_eq_true _)
    cases h
    simp only [exec_shrVx, exec_shlVx, shiftRight, shiftLeft, hsrc]
    exact ⟨_, rfl, sameButV_setVFlag_setV s r b x _ _⟩
  | drw x y n =>
    have hdraw : drawOf x y n (setV s r b) = drawOf x y n s := by
      rw [drawOf, hread x (by simp [readsV]), hread y (by simp [readsV])]
      rfl
    cases h
    rw [exec_drw, hdraw]
    exact ⟨_, rfl, rfl, (sameButV_setV_setV s r b vf _).2⟩
  | seVxKk x kk | sneVxKk x kk =>
    have hx := hread x (by simp [readsV])
    cases h
    simp only [exec_seVxKk, exec_sneVxKk, hx, skipIf_setV]
    exact ⟨_, rfl, sameButV_setV _ r b⟩
  | seVxVy x y | sneVxVy x y =>
    have hx := hread x (by simp [readsV])
    have hy := hread y (by simp [readsV])
    cases h
    simp only [exec_seVxVy, exec_sneVxVy, hx, hy, skipIf_setV]
    exact ⟨_, rfl, sameButV_setV _ r b⟩
  | jpV0 nnn =>
    cases h
    rw [exec_jpV0, jumpV0Target, hread 0 (by simp [readsV])]
    exact ⟨setV _ r b, rfl, sameButV_setV _ r b⟩
  | ldMemVx x =>
    have hregs : regsUpTo (setV s r b) x = regsUpTo s x := regsUpTo_congr fun q hq => hread q (by simpa [readsV] using hq)
    cases h
    rw [exec_ldMemVx, hregs]
    exact ⟨setV _ r b, rfl, sameButV_setV _ r b⟩
  | skp x | sknp x | ldDtVx x | ldStVx x | addIVx x | ldFVx x | ldBVx x =>
    have hx := hread x (by simp [readsV])
    cases h
    simp only [exec_skp, exec_sknp, exec_ldDtVx, exec_ldStVx, exec_addIVx, exec_ldFVx, glyphOperand, glyphNumber,
      exec_ldBVx, hx, skipIf_setV]
    exact ⟨setV _ r b, rfl, sameButV_setV _ r b⟩

/-! ### The obligations -/

/-- Settles O56: no operand is ST (`exec_withSt`). -/
theorem soundTimerInfluencesNothing : Obligations.SoundTimerInfluencesNothing :=
  fun _ _ _ b h => exec_withSt b h

/-- Settles O60: the operands of an instruction are the registers that `readsV` and `readsI` name (`exec_setV`, `exec_setI`). -/
theorem unreadRegistersInfluenceNothing : Obligations.UnreadRegistersInfluenceNothing :=
  fun _ _ t h => ⟨fun _ b hr => exec_setV b hr h, fun w hi => ⟨_, exec_setI w hi h, onlyI_setI t _⟩⟩

end Sys2Proof.Machine
